-- ==== Sys2Proof/Word.lean ====
section
/-! DEFINITION. The three word types of the block: a sample (00_scope.md §5 "each is 8 bits"), a register or packed
word (R14, R34: 16 bits) and a bus address (R31: "an address is a 32-bit unsigned number"). -/

namespace Sys2Proof

/-- One grayscale sample, 8 bits, unsigned: 0x00 black to 0xFF white. -/
abbrev Byte := BitVec 8

/-- A 16-bit register, command word or packed word (R14, R34, R50). -/
abbrev Word := BitVec 16

/-- An address as the host puts it on the bus (R31: 32 bits, unsigned; the same width is used for `REG`). -/
abbrev Addr := BitVec 32

end Sys2Proof
end

