-- ==== Sys2Proof/Config.lean ====
section
/-! DEFINITION. What an implementation fixes (00_scope.md §4): the pixel formats, the parameters `W`, `H` and `UPD_FMT`
that are sampled at reset (R4, R5, R126), and the codes the spec fixes for the two named modes and the alignment
(R6, R7). The model quantifies over the parameters: they stand in the state, where reset puts them. -/

namespace Sys2Proof

/-- The pixel formats (R8): "{8bpp, 4bpp, 3bpp, 2bpp}". -/
inductive PixelFormat where
  | bpp2
  | bpp3
  | bpp4
  | bpp8
  deriving DecidableEq, Repr

/-- The parameters of one block (R4, R5). No command changes them; reset samples them (R126). -/
structure Params where
  /-- Frame width in samples (R4), read in DIM_W. -/
  W : Word
  /-- Frame height in samples (R4), read in DIM_H. -/
  H : Word
  /-- `UPD_FMT`, the format update commands pack with (R5), read in FMT. -/
  updFmt : PixelFormat
  deriving DecidableEq, Repr

/-- The number of samples of a frame, `W*H`: the size of the `FBS` space (R30). -/
def Params.size (p : Params) : Nat := p.W.toNat * p.H.toNat

namespace Config

/-- `MODE_INIT` (R6). -/
def modeInit : Byte := 0

/-- `MODE_DU` (R6). -/
def modeDu : Byte := 1

/-- `ALIGN` (R7, 90_conflicts.md C1). -/
def align : Nat := 4

/-- The parameters `State.reset` samples. DESIGN CHOICE (log 1): the spec leaves `W`, `H` and `UPD_FMT` OPEN; this
is the block of the spec's programs P2 and P3. No statement rests on it: statements quantify over the parameters. -/
def resetParams : Params := { W := 8, H := 4, updFmt := .bpp4 }

end Config

end Sys2Proof
end

