-- ==== Sys2Proof/Syntax.lean ====
section
/-! DEFINITION. The commands of the block, one constructor per row of spec/opcode_table.json (R51). -/

namespace Sys2Proof

/-- A legal command word (R50 to R54). The four PACK commands and CLEAR are single words; WFULL and WPART carry the
8-bit display mode, all of whose 256 values are legal (R53). -/
inductive Instr where
  /-- `PACK2`, 0x1000 (R74). -/
  | pack2
  /-- `PACK3`, 0x1001 (R73). -/
  | pack3
  /-- `PACK4`, 0x1002 (R72). -/
  | pack4
  /-- `PACK8`, 0x1003 (R71). -/
  | pack8
  /-- `WFULL mode`, 0x20mm (R84). -/
  | wfull (mode : Byte)
  /-- `WPART mode`, 0x21mm (R86). -/
  | wpart (mode : Byte)
  /-- `CLEAR`, 0x2200 (R92). -/
  | clear
  deriving DecidableEq, Repr

end Sys2Proof
end

