-- ==== Sys2Proof/WellFormed.lean ====
section
/-! DEFINITION. Well-formed parameters and commands. -/

namespace Sys2Proof

/-- A legal block (R4): `0 < W <= 65532`, `0 < H <= 65532`, both multiples of 4. "A model refuses any other pair." -/
abbrev Params.wf (p : Params) : Prop :=
  (0 < p.W.toNat ∧ p.W.toNat ≤ 65532 ∧ p.W.toNat % 4 = 0) ∧
  (0 < p.H.toNat ∧ p.H.toNat ≤ 65532 ∧ p.H.toNat % 4 = 0)

/-- Every term of `Instr` is a legal command: the mode of WFULL and WPART is 8 bits wide and "all 256 values are
legal" (R53); the other commands have no operand (R52, R54). -/
abbrev Instr.wf : Instr → Bool
  | .pack2 => true
  | .pack3 => true
  | .pack4 => true
  | .pack8 => true
  | .wfull _ => true
  | .wpart _ => true
  | .clear => true

end Sys2Proof
end

