-- ==== Sys2Proof/Decode.lean ====
section
/-! DEFINITION. The command word (30_encoding.md): its two fields, the decoder, total on all 65536 words and refusing
by name, and the encoder. -/

namespace Sys2Proof

/-- `OP`, bits 15:8 of a command word (R50). -/
def opField (w : Word) : Byte := w.extractLsb' 8 8

/-- `ARG`, bits 7:0 of a command word (R50). -/
def argField (w : Word) : Byte := w.extractLsb' 0 8

/-- The 2-bit PixelFormat codes (R55): 2bpp = 0, 3bpp = 1, 4bpp = 2, 8bpp = 3. -/
def PixelFormat.code : PixelFormat → BitVec 2
  | .bpp2 => 0
  | .bpp3 => 1
  | .bpp4 => 2
  | .bpp8 => 3

/-- The format of a code (R55); every 2-bit code names one. -/
def formatOfCode (c : BitVec 2) : PixelFormat :=
  if c = 0 then .bpp2 else if c = 1 then .bpp3 else if c = 2 then .bpp4 else .bpp8

/-- Why a word is reserved (R57, its three clauses). -/
inductive DecodeError where
  /-- `OP` is not 0x10, 0x20, 0x21 or 0x22. -/
  | reservedOp
  /-- A word 0x10xx with `ARG[7:2] != 0` (R52). -/
  | packArg
  /-- A word 0x22xx with `ARG != 0` (R54). -/
  | clearArg
  deriving DecidableEq, Repr

/-- What the decoder answers: the command, or the clause of R57 that reserves the word. -/
inductive Decoded where
  | command (i : Instr)
  | reserved (e : DecodeError)
  deriving DecidableEq, Repr

/-- The PACK command of a format (R52). -/
def packOf : PixelFormat → Instr
  | .bpp2 => .pack2
  | .bpp3 => .pack3
  | .bpp4 => .pack4
  | .bpp8 => .pack8

/-- The decoder (R51 to R54, R57, R105). -/
def decode (w : Word) : Decoded :=
  if opField w = 0x10 then
    if (argField w).extractLsb' 2 6 = 0 then .command (packOf (formatOfCode ((argField w).extractLsb' 0 2)))
    else .reserved .packArg
  else if opField w = 0x20 then .command (.wfull (argField w))
  else if opField w = 0x21 then .command (.wpart (argField w))
  else if opField w = 0x22 then
    if argField w = 0 then .command .clear else .reserved .clearArg
  else .reserved .reservedOp

/-- `OP` of a command (R51). -/
def opOf : Instr → Byte
  | .pack2 => 0x10
  | .pack3 => 0x10
  | .pack4 => 0x10
  | .pack8 => 0x10
  | .wfull _ => 0x20
  | .wpart _ => 0x21
  | .clear => 0x22

/-- `ARG` of a command (R52, R53, R54). -/
def argOf : Instr → Byte
  | .pack2 => (0 : BitVec 6) ++ PixelFormat.bpp2.code
  | .pack3 => (0 : BitVec 6) ++ PixelFormat.bpp3.code
  | .pack4 => (0 : BitVec 6) ++ PixelFormat.bpp4.code
  | .pack8 => (0 : BitVec 6) ++ PixelFormat.bpp8.code
  | .wfull mode => mode
  | .wpart mode => mode
  | .clear => 0

/-- The word of a command: `OP` in 15:8, `ARG` in 7:0 (R50). -/
def encode (i : Instr) : Word := opOf i ++ argOf i

/-- A command's row of spec/opcode_table.json: its mask and its match. -/
def tableRow : Instr → Word × Word
  | .pack2 => (0xFFFF, 0x1000)
  | .pack3 => (0xFFFF, 0x1001)
  | .pack4 => (0xFFFF, 0x1002)
  | .pack8 => (0xFFFF, 0x1003)
  | .wfull _ => (0xFF00, 0x2000)
  | .wpart _ => (0xFF00, 0x2100)
  | .clear => (0xFFFF, 0x2200)

/-- The command the decoder reads from a table word. A command is one 16-bit word that is never split into bytes
(R34, R50), so the table's number is the word itself; the bits above `nbits` are 0. -/
def decodeTableWord (nbits w : Nat) : Option Instr :=
  match decode (BitVec.ofNat 16 (w % 2 ^ nbits)) with
  | .command i => some i
  | .reserved _ => none

end Sys2Proof
end

