-- ==== Sys2Proof/Machine/State.lean ====
section
/-! DEFINITION. The state of the block (10_state.md), with the two parties that act on it as plain data: the host's
coming transactions and the sink's coming answers (R9). Plain data throughout. -/

namespace Sys2Proof.Machine

/-- A grid of 8-bit samples, sparse: address `y*W + x` (R31) and sample. Canonical form: `Memory.wf` in Ops.lean. -/
structure Memory where
  cells : List Host.Cell
  deriving DecidableEq, Repr

/-- Nothing listed: every address reads as the unlisted sample (`unlisted` in Ops.lean, 0x00). This is `Zero` (R82). -/
def Memory.zero : Memory := { cells := [] }

/-- A rectangle as a token carries it (R40, R59): four unsigned 16-bit numbers. -/
structure Rect where
  x : Word
  y : Word
  w : Word
  h : Word
  deriving DecidableEq, Repr

/-- The six kinds of token (R40). -/
inductive Token where
  /-- kind 0: make sure the display device is idle. -/
  | waitRdy
  /-- kind 1: begin a load of the whole frame. -/
  | loadFull
  /-- kind 2: begin a load of the rectangle. -/
  | loadArea (r : Rect)
  /-- kind 3: the next packed word of the open load. -/
  | pixWord (word : Word)
  /-- kind 4: close the open load. -/
  | loadEnd
  /-- kind 5: refresh the rectangle with the mode. -/
  | display (r : Rect) (mode : Byte)
  deriving DecidableEq, Repr

/-- The sink's two answers (R41). -/
inductive Answer where
  | ack
  | nak
  deriving DecidableEq, Repr

/-- A token the sink has answered, as `OUT` keeps it (R25). -/
structure Sent where
  token  : Token
  answer : Answer
  deriving DecidableEq, Repr

/-- The sink's coming answers, an input of the model (R41, 93_implementation_defined.md U9). `script` is what the
block finds each time it looks for an answer, first entry first; `none` is "no answer yet". After the script every
look finds `rest`; `rest = none` is a sink that never answers (R124). -/
structure SinkPlan where
  script : List (Option Answer)
  rest   : Option Answer
  deriving DecidableEq, Repr

/-- The two host-addressable spaces (R30). -/
inductive Space where
  | reg
  | fbs
  deriving DecidableEq, Repr

/-- What the outside world does to the block (R100, R125): a read or a write of `width` bits at an address of a space,
or the reset input. `RegRead(a)` is `read .reg a 16`, `RegWrite(a, v)` is `write .reg a 16 v`, `FbRead(a)` is
`read .fbs a 8`, `FbWrite(a, v)` is `write .fbs a 8 v`, a command issue is `write .reg 0 16 word`; every other width is
a bus error (R36). Reset brings the parameters it samples (R126) and the unspecified contents of `FB`, a free input of
the launch (R20, U1), in `FBS` order. -/
inductive HostInput where
  | read (space : Space) (addr : Addr) (width : Nat)
  | write (space : Space) (addr : Addr) (width : Nat) (value : Word)
  | reset (params : Params) (contents : List Byte)
  deriving DecidableEq, Repr

/-- How a transaction ended, as the host sees it (R100, R106). -/
inductive Reply where
  /-- `RegRead`'s 16-bit value (R101). -/
  | word (v : Word)
  /-- `FbRead`'s 8-bit value (R103). -/
  | sample (v : Byte)
  /-- A write has completed (R102, R104, R105). -/
  | done
  /-- The error response (R106). -/
  | busError
  deriving DecidableEq, Repr

/-- The primed values a command will commit (R95): `GA'`, `PF'` and the new NOOP. -/
structure Commit where
  ga   : Memory
  pf   : Memory
  noop : Bool
  deriving DecidableEq, Repr

/-- A command that waits for the sink (R107, R124): the token sent and not yet answered, the tokens still to send
after it, and what it will commit. -/
structure Pending where
  token  : Token
  later  : List Token
  commit : Commit
  deriving DecidableEq, Repr

/-- The errors of a command (R110) other than OK. -/
inductive Err where
  /-- 1: a reserved command word. -/
  | illegalCmd
  /-- 2: NAK to WAITRDY. -/
  | busyTimeout
  /-- 3: NAK to any other token. -/
  | sinkFail
  deriving DecidableEq, Repr

/-- Why the machine stops with a fault. -/
inductive Fault where
  /-- Raised by WFULL, WPART and CLEAR when `PackSeq` is asked for a length it is "not defined" for (R69). It cannot
  arise in a state whose parameters are legal (R96). Safe: such a block does not exist (R4). -/
  | packUndefined
  deriving DecidableEq, Repr

/-- Why the model gives a step no meaning. -/
inductive Refusal where
  /-- Raised by `exec`'s arm of a command that has no meaning yet (there is none). Safe. -/
  | notModelled (mnemonic : String)
  /-- Raised by a step whose state, or whose reset input, has a `W` or `H` that is 0, above 65532 or no multiple of 4:
  "a model refuses any other pair" (R4, U13). Safe. -/
  | illFormedParams
  deriving DecidableEq, Repr

/-- The state (R10 to R26). -/
structure State where
  /-- `W`, `H`, `UPD_FMT` as the last reset sampled them (R4, R5, R126). -/
  params  : Params
  /-- The staging registers `S[0]` to `S[7]` (R10). -/
  stage   : Vector Byte 8
  /-- The packed-word register `PW` (R11). -/
  pw      : Word
  /-- `STATUS.NOOP` (R15). -/
  noop    : Bool
  /-- `STATUS.ERR` (R15). -/
  err     : BitVec 4
  /-- FrameBuffer (R20). -/
  fb      : Memory
  /-- PreviousFrame and its flag `STATUS.PFV` (R21): `none` is "absent", PFV = 0, and then there are no contents to
  read; `some`, PFV = 1 (93_implementation_defined.md U2). -/
  pf      : Option Memory
  /-- GrayAccumulator (R22). -/
  ga      : Memory
  /-- The token history `OUT`, oldest first (R25). -/
  out     : List Sent
  /-- The command that waits for a sink answer, if any (R107, R124). -/
  waiting : Option Pending
  /-- The host's coming transactions and resets, first one first (R9, R100, R137). An input. -/
  host    : List HostInput
  /-- The sink's coming answers (R41). An input. -/
  sink    : SinkPlan
  /-- How the transactions so far ended, oldest first: read data and responses (R100). An output. -/
  replies : List Reply
  deriving DecidableEq, Repr

/-- A sink that acknowledges every token. -/
def SinkPlan.allAck : SinkPlan := { script := [], rest := some .ack }

/-- The state after reset of a block with parameters `p` whose FrameBuffer happens to hold `contents` (R126): `FB` is
"unspecified, stable", so it is an argument. The inputs and the host's record of replies are empty; they belong to
the world around the block. -/
def State.resetOf (p : Params) (contents : Memory) : State where
  params  := p
  stage   := Vector.replicate 8 0
  pw      := 0
  noop    := false
  err     := 0
  fb      := contents
  pf      := none
  ga      := .zero
  out     := []
  waiting := none
  host    := []
  sink    := .allAck
  replies := []

/-- The machine right after reset (R126), of the block `Config.resetParams` (log 1), nothing listed in `FB` (log 2),
and a sink that acknowledges (log 3). -/
def State.reset : State := State.resetOf Config.resetParams .zero

end Sys2Proof.Machine
end

