-- ==== Sys2Proof/Machine/Ops.lean ====
section
/-! DEFINITION. The named operations over memories, the sink port and the end of a command, the error outcome
(this hardware's exception, R113) among them. -/

namespace Sys2Proof.Machine

/-! ## Memories -/

/-- What an address that is not listed reads as: 0x00. For GrayAccumulator this is its reset value (R22); for
FrameBuffer it is a DESIGN CHOICE (log 2). -/
def unlisted : Byte := 0x00

/-- The canonical form: addresses strictly rising, and no entry equal to what an unlisted address reads as. -/
abbrev Memory.wf (m : Memory) : Prop :=
  m.cells.Pairwise (fun c d => c.1 < d.1) ∧ ∀ c ∈ m.cells, c.2 ≠ unlisted

/-- The sample a list of cells holds at an address. -/
def readCells : List Host.Cell → Nat → Byte
  | [], _ => unlisted
  | (k, v) :: cs, a => if k = a then v else readCells cs a

/-- The sample at an address. -/
def Memory.read (m : Memory) (a : Nat) : Byte := readCells m.cells a

/-- `v` stored at `a` in a list of cells in canonical form. -/
def writeCells : List Host.Cell → Nat → Byte → List Host.Cell
  | [], a, v => if v = unlisted then [] else [(a, v)]
  | (k, w) :: cs, a, v =>
    if a < k then (if v = unlisted then (k, w) :: cs else (a, v) :: (k, w) :: cs)
    else if a = k then (if v = unlisted then cs else (a, v) :: cs)
    else (k, w) :: writeCells cs a v

/-- The memory with `v` at `a` and every other address as before. -/
def Memory.write (m : Memory) (a : Nat) (v : Byte) : Memory := { cells := writeCells m.cells a v }

/-- The memory that holds `f a` at every address below `n` and nothing above. -/
def Memory.tabulate (n : Nat) (f : Nat → Byte) : Memory :=
  { cells := (List.range n).filterMap fun a => if f a = unlisted then none else some (a, f a) }

/-- The sample `[x, y]` of a grid `W` wide, at address `y*W + x` (R31). -/
def Memory.at (m : Memory) (W x y : Nat) : Byte := m.read (y * W + x)

/-- `White` (R82): every sample of the frame 0xFF. -/
def white (p : Params) : Memory := Memory.tabulate p.size fun _ => 0xFF

/-- The unspecified contents a reset finds in `FB`, in `FBS` order (R20, U1): a grid of the frame's size. -/
def launchContents (p : Params) (contents : List Byte) : Memory :=
  Memory.tabulate p.size fun a => contents.getD a unlisted

/-! ## The end of a command -/

/-- The codes of `STATUS.ERR` (R110). -/
def Err.code : Err → BitVec 4
  | .illegalCmd => 1
  | .busyTimeout => 2
  | .sinkFail => 3

/-- THE ERROR OUTCOME, `raise Err(code)` (R113): no commit, `STATUS.ERR <- code`, and the command is over. Nothing is
saved and control goes nowhere; there is no return operation and nothing to restore (R117). -/
def raiseErr (e : Err) (s : State) : State := { s with err := e.code, waiting := none }

/-- Commit (R95), the end of a command that succeeds: `GA <- GA'`, `PF <- PF'`, `PFV <- 1`, `NOOP` as given, and as its
last act `ERR <- 0` (R113). -/
def commit (c : Commit) (s : State) : State :=
  { s with ga := c.ga, pf := some c.pf, noop := c.noop, err := 0, waiting := none }

/-! ## The token port -/

/-- One look at the sink: its answer, if there is one, and the answers that remain (R41). -/
def SinkPlan.poll (k : SinkPlan) : Option Answer × SinkPlan :=
  match k.script with
  | [] => (k.rest, k)
  | a :: as => (a, { k with script := as })

/-- The error a NAK to this token raises (R44). -/
def nakError : Token → Err
  | .waitRdy => .busyTimeout
  | .loadFull => .sinkFail
  | .loadArea _ => .sinkFail
  | .pixWord _ => .sinkFail
  | .loadEnd => .sinkFail
  | .display _ _ => .sinkFail

/-- `emit` for each token of a list, then the commit (R41, R83, R95). An ACK goes on to the next token; a NAK ends the
command with the token's error (R44), nothing sent after it; while there is no answer the command waits and nothing
after it happens (R107, R124). `OUT` keeps each answered token (R25, R45). -/
def transmit : List Token → Commit → State → State
  | [], c, s => commit c s
  | t :: ts, c, s =>
    match s.sink.poll with
    | (none, k) => { s with sink := k, waiting := some { token := t, later := ts, commit := c } }
    | (some .ack, k) => transmit ts c { s with sink := k, out := s.out ++ [{ token := t, answer := .ack }] }
    | (some .nak, k) =>
      raiseErr (nakError t) { s with sink := k, out := s.out ++ [{ token := t, answer := .nak }] }

/-- A waiting command looks at the sink again (R124). -/
def resume (p : Pending) (s : State) : State := transmit (p.token :: p.later) p.commit s

/-- Whether a transmission is of the whole frame or of a rectangle (R83). -/
inductive LoadKind where
  | full
  | area
  deriving DecidableEq, Repr

/-- The token that opens a load (R40, R83). -/
def loadToken (kind : LoadKind) (r : Rect) : Token :=
  match kind with
  | .full => .loadFull
  | .area => .loadArea r

/-- The tokens of one transmission in their order (R43, R83). -/
def transmission (kind : LoadKind) (r : Rect) (words : List Word) (mode : Byte) : List Token :=
  .waitRdy :: loadToken kind r :: (words.map .pixWord ++ [.loadEnd, .display r mode])

/-! ## The host's side -/

/-- A transaction has ended with this reply. -/
def reply (r : Reply) (s : State) : State := { s with replies := s.replies ++ [r] }

/-- The write to CMD completes when the command has committed or ended in an error, and not before (R107). -/
def completeIssue (s : State) : State :=
  match s.waiting with
  | none => reply .done s
  | some _ => s

/-- The reset input (R125, R126, R129): every piece of the block's state at its reset value, a waiting command
abandoned, the parameters sampled. The inputs and the host's own record stay: they are not the block's. -/
def resetBlock (p : Params) (contents : List Byte) (s : State) : State :=
  { State.resetOf p (launchContents p contents) with host := s.host, sink := s.sink, replies := s.replies }

end Sys2Proof.Machine
end

