-- ==== Sys2Proof/Machine/Operands.lean ====
section
/-! DEFINITION. Operand forms: the register map (R14), the staged group of a PACK command (R10), the mode operand
(R53, R98) and the format's ratio and field width (R8, R70). -/

namespace Sys2Proof.Machine

/-- The registers of the `REG` space (R14). -/
inductive Reg where
  | cmd
  | status
  | dimW
  | dimH
  | fmt
  | pw
  | stage (i : Fin 8)
  deriving DecidableEq, Repr

/-- The map of R14, complete: an address not listed is unmapped. -/
def regAt (a : Addr) : Option Reg :=
  if a = 0x00 then some .cmd
  else if a = 0x01 then some .status
  else if a = 0x02 then some .dimW
  else if a = 0x03 then some .dimH
  else if a = 0x04 then some .fmt
  else if a = 0x05 then some .pw
  else if h : 0x08 ≤ a.toNat ∧ a.toNat < 0x10 then some (.stage ⟨a.toNat - 0x08, by omega⟩)
  else none

/-- `SPW(fmt)`, samples per word (R8). -/
def spw : PixelFormat → Nat
  | .bpp8 => 2
  | .bpp4 => 4
  | .bpp3 => 4
  | .bpp2 => 8

/-- The field width `F` of a format's lanes (R70); 4 for 3bpp (R67, 90_conflicts.md C4). -/
def laneBits : PixelFormat → Nat
  | .bpp8 => 8
  | .bpp4 => 4
  | .bpp3 => 4
  | .bpp2 => 2

/-- The comparison of a mode with `MODE_DU`, the only thing the tracker looks at (R6, R98). -/
abbrev isDu (mode : Byte) : Prop := mode = Config.modeDu

/-- The kind code of a token (R40, R59): 0 to 5; 6 and 7 are never sent. -/
def Token.kindCode : Token → BitVec 3
  | .waitRdy => 0
  | .loadFull => 1
  | .loadArea _ => 2
  | .pixWord _ => 3
  | .loadEnd => 4
  | .display _ _ => 5

/-- `FullRect` (R79): `(0, 0, W, H)`. -/
def fullRect (p : Params) : Rect := { x := 0, y := 0, w := p.W, h := p.H }

end Sys2Proof.Machine
end

