-- ==== Sys2Proof/Machine/Codec.lean ====
section
/-! DEFINITION. The pixel packer's pure functions (40_pack.md sections 1 and 2). -/

namespace Sys2Proof.Machine

/-- `Pack8` (R65): `word = (b1 << 8) | b0`. -/
def pack8 (b0 b1 : Byte) : Word := (b1.setWidth 16 <<< 8) ||| b0.setWidth 16

/-- One turn of `Pack4`'s loop (R66). -/
def shiftIn4 (word : Word) (b : Byte) : Word := (word <<< 4) ||| (b >>> 4).setWidth 16

/-- `Pack4` (R66): the loop for i = 3 downto 0, `word` starting at 0 (92_eei_decisions.md D17). -/
def pack4 (b0 b1 b2 b3 : Byte) : Word := [b3, b2, b1, b0].foldl shiftIn4 0

/-- One turn of `Pack3`'s loop (R67): the sample is masked with 0xFE before the shift. -/
def shiftIn3 (word : Word) (b : Byte) : Word := (word <<< 4) ||| ((b &&& 0xFE) >>> 4).setWidth 16

/-- `Pack3` (R67): a 4-bit field despite its name; "preserve this behavior exactly". -/
def pack3 (b0 b1 b2 b3 : Byte) : Word := [b3, b2, b1, b0].foldl shiftIn3 0

/-- One turn of `Pack2`'s loop (R68). -/
def shiftIn2 (word : Word) (b : Byte) : Word := (word <<< 2) ||| (b >>> 6).setWidth 16

/-- `Pack2` (R68): the loop for i = 7 downto 0. -/
def pack2 (b0 b1 b2 b3 b4 b5 b6 b7 : Byte) : Word := [b7, b6, b5, b4, b3, b2, b1, b0].foldl shiftIn2 0

/-- `PackWord(fmt, g)` (R69): the format's function on the group whose sample `i` is `g i`. -/
def packWord (fmt : PixelFormat) (g : Nat → Byte) : Word :=
  match fmt with
  | .bpp8 => pack8 (g 0) (g 1)
  | .bpp4 => pack4 (g 0) (g 1) (g 2) (g 3)
  | .bpp3 => pack3 (g 0) (g 1) (g 2) (g 3)
  | .bpp2 => pack2 (g 0) (g 1) (g 2) (g 3) (g 4) (g 5) (g 6) (g 7)

/-- `PackSeq(fmt, s)` (R69): word `k` packs `s[k*n .. k*n + n)`, `n = SPW(fmt)`; groups are cut from the flattened
sequence (90_conflicts.md C3). Not defined when the length is no multiple of `n`. -/
def packSeq (fmt : PixelFormat) (s : List Byte) : Option (List Word) :=
  if s.length % spw fmt = 0 then
    some ((List.range (s.length / spw fmt)).map fun k => packWord fmt fun i => s.getD (k * spw fmt + i) 0)
  else none

/-- `Unlane(fmt, word, i)` (R70), the inverse "used only for testing": lane `i` of the word shifted back to 8 bits. -/
def unlane (fmt : PixelFormat) (word : Word) (i : Nat) : Byte :=
  (word.extractLsb' (laneBits fmt * i) (laneBits fmt)).setWidth 8 <<< (8 - laneBits fmt)

end Sys2Proof.Machine
end

