-- ==== Sys2Proof/Machine/Flags.lean ====
section
/-! DEFINITION. STATUS and its fields (R15), the block's only flags. -/

namespace Sys2Proof.Machine

/-- `STATUS.PFV` (R15, R21): 1 when PreviousFrame is present. -/
def State.pfv (s : State) : Bool := s.pf.isSome

/-- STATUS as the host reads it (R15, R101): `{0x00, ERR[3:0], 0b00, NOOP, PFV}`. -/
def statusWord (s : State) : Word :=
  (0 : BitVec 8) ++ s.err ++ (0 : BitVec 2) ++ BitVec.ofBool s.noop ++ BitVec.ofBool s.pfv

/-- `STATUS.ERR <- 0`, the last act of a command that completes (R113); the other flags stay. -/
def clearErr (s : State) : State := { s with err := 0 }

end Sys2Proof.Machine
end

