-- ==== Sys2Proof/Machine/Pack.lean ====
section
/-! DEFINITION. The PACK commands (40_pack.md section 3): `PW` gets the packed word of the staged samples, `ERR <- 0`. -/

namespace Sys2Proof.Machine

/-- The end all four share: `PW <- word`, `STATUS.ERR <- 0`; no token, nothing else (R12, D32). -/
def packInto (word : Word) (s : State) : Host.Outcome State Fault Refusal := .next (clearErr { s with pw := word })

/-- PACK2 (R74). -/
def execPack2 (s : State) : Host.Outcome State Fault Refusal :=
  packInto (pack2 s.stage[0] s.stage[1] s.stage[2] s.stage[3] s.stage[4] s.stage[5] s.stage[6] s.stage[7]) s

/-- PACK3 (R73). -/
def execPack3 (s : State) : Host.Outcome State Fault Refusal :=
  packInto (pack3 s.stage[0] s.stage[1] s.stage[2] s.stage[3]) s

/-- PACK4 (R72). -/
def execPack4 (s : State) : Host.Outcome State Fault Refusal :=
  packInto (pack4 s.stage[0] s.stage[1] s.stage[2] s.stage[3]) s

/-- PACK8 (R71). -/
def execPack8 (s : State) : Host.Outcome State Fault Refusal := packInto (pack8 s.stage[0] s.stage[1]) s

end Sys2Proof.Machine
end

