-- ==== Sys2Proof/Machine/Region.lean ====
section
/-! DEFINITION. The region functions (41_tracker.md section 1): grids are memories of the frame's size. -/

namespace Sys2Proof.Machine

/-- One cell of `AbsDiff` (R75): the absolute value of the difference over the integers. -/
def absDiff (a b : Byte) : Byte := BitVec.ofNat 8 ((a.toNat : Int) - (b.toNat : Int)).natAbs

/-- One cell of `SatAdd` (R76): the sum over the integers, capped at 255. -/
def satAdd (a b : Byte) : Byte := BitVec.ofNat 8 (min 255 (a.toNat + b.toNat))

/-- `AbsDiff(A, B)` (R75). -/
def absDiffGrid (p : Params) (A B : Memory) : Memory :=
  Memory.tabulate p.size fun a => absDiff (A.read a) (B.read a)

/-- `SatAdd(A, B)` (R76). -/
def satAddGrid (p : Params) (A B : Memory) : Memory :=
  Memory.tabulate p.size fun a => satAdd (A.read a) (B.read a)

/-- A box with exclusive maxima (R77). -/
structure Box where
  minX : Nat
  minY : Nat
  maxX : Nat
  maxY : Nat
  deriving DecidableEq, Repr

/-- The columns that hold a non-zero cell, rising. -/
def dirtyColumns (p : Params) (M : Memory) : List Nat :=
  (List.range p.W.toNat).filter fun x => (List.range p.H.toNat).any fun y => M.at p.W.toNat x y != 0

/-- The rows that hold a non-zero cell, rising. -/
def dirtyRows (p : Params) (M : Memory) : List Nat :=
  (List.range p.H.toNat).filter fun y => (List.range p.W.toNat).any fun x => M.at p.W.toNat x y != 0

/-- `BBox(M)` (R77): the bounding box of the non-zero cells, none when every cell is 0. -/
def bbox (p : Params) (M : Memory) : Option Box :=
  match (dirtyColumns p M).head?, (dirtyColumns p M).getLast?, (dirtyRows p M).head?, (dirtyRows p M).getLast? with
  | some x0, some x1, some y0, some y1 => some { minX := x0, minY := y0, maxX := x1 + 1, maxY := y1 + 1 }
  | _, _, _, _ => none

/-- A bound rounded down to a multiple of `ALIGN` (R78). -/
def roundDown (n : Nat) : Nat := n / Config.align * Config.align

/-- A bound rounded up to a multiple of `ALIGN` (R78). -/
def roundUp (n : Nat) : Nat := (n + Config.align - 1) / Config.align * Config.align

/-- `RoundBox` (R78): minima down, maxima up. -/
def roundBox (b : Box) : Box :=
  { minX := roundDown b.minX, minY := roundDown b.minY, maxX := roundUp b.maxX, maxY := roundUp b.maxY }

/-- `RectOf` (R79): the box as position and size, each in 16 bits. -/
def rectOf (b : Box) : Rect :=
  { x := BitVec.ofNat 16 b.minX, y := BitVec.ofNat 16 b.minY
    w := BitVec.ofNat 16 (b.maxX - b.minX), h := BitVec.ofNat 16 (b.maxY - b.minY) }

/-- `Crop(F, (x, y, w, h))` (R80, R32): the `w*h` samples of the rectangle in row-major order. -/
def crop (p : Params) (F : Memory) (r : Rect) : List Byte :=
  (List.range (r.w.toNat * r.h.toNat)).map fun k =>
    F.at p.W.toNat (r.x.toNat + k % r.w.toNat) (r.y.toNat + k / r.w.toNat)

/-- `Bin(s)` (R81): 0xFF if `s >= 0x80`, else 0x00. -/
def bin (s : Byte) : Byte := if 0x80 ≤ s.toNat then 0xFF else 0x00

end Sys2Proof.Machine
end

