-- ==== Sys2Proof/Machine/Tracker.lean ====
section
/-! DEFINITION. The tracker commands (41_tracker.md section 4). -/

namespace Sys2Proof.Machine

/-- Pack a sequence of samples with `UPD_FMT` and transmit it, then commit (R83, R95). -/
def sendRegion (kind : LoadKind) (r : Rect) (samples : List Byte) (mode : Byte) (c : Commit) (s : State) :
    Host.Outcome State Fault Refusal :=
  match packSeq s.params.updFmt samples with
  | some words => .next (transmit (transmission kind r words mode) c s)
  | none => .fault .packUndefined

/-- `GA'` of a full update (R84): in DU mode the accumulated difference, which is all-zero when PreviousFrame is absent
(R85, D14); in every other mode `Zero`. -/
def fullGa (mode : Byte) (s : State) : Memory :=
  if isDu mode then
    match s.pf with
    | some pf => satAddGrid s.params s.ga (absDiffGrid s.params pf s.fb)
    | none => s.ga
  else .zero

/-- A full update (R84): the whole frame, never binarised (R97). -/
def fullUpdate (mode : Byte) (s : State) : Host.Outcome State Fault Refusal :=
  sendRegion .full (fullRect s.params) (crop s.params s.fb (fullRect s.params)) mode
    { ga := fullGa mode s, pf := s.fb, noop := false } s

/-- The raw dirty box of a partial update against `pf`: of the difference alone in DU mode (R88), of the accumulated
difference otherwise (R89). -/
def partialBox (mode : Byte) (pf : Memory) (s : State) : Option Box :=
  let diff := absDiffGrid s.params pf s.fb
  if isDu mode then bbox s.params diff else bbox s.params (satAddGrid s.params s.ga diff)

/-- `GA'` of a partial update against `pf` (R88, R89). -/
def partialGa (mode : Byte) (pf : Memory) (s : State) : Memory :=
  if isDu mode then satAddGrid s.params s.ga (absDiffGrid s.params pf s.fb) else .zero

/-- The samples a partial update sends for a rectangle (R91): of `FB`, binarised in DU mode. -/
def partialSamples (mode : Byte) (r : Rect) (s : State) : List Byte :=
  if isDu mode then (crop s.params s.fb r).map bin else crop s.params s.fb r

/-- A partial update against a present PreviousFrame (R86): nothing is sent when there is no dirty box (R90), else the
rounded box (R91). -/
def partialUpdate (mode : Byte) (pf : Memory) (s : State) : Host.Outcome State Fault Refusal :=
  match partialBox mode pf s with
  | none => .next (commit { ga := partialGa mode pf s, pf := s.fb, noop := true } s)
  | some raw =>
    sendRegion .area (rectOf (roundBox raw)) (partialSamples mode (rectOf (roundBox raw)) s) mode
      { ga := partialGa mode pf s, pf := s.fb, noop := false } s

/-- WFULL (R84). -/
def execWFull (mode : Byte) (s : State) : Host.Outcome State Fault Refusal := fullUpdate mode s

/-- WPART (R86): with PreviousFrame absent it is the full update (R87, bootstrap). -/
def execWPart (mode : Byte) (s : State) : Host.Outcome State Fault Refusal :=
  match s.pf with
  | none => fullUpdate mode s
  | some pf => partialUpdate mode pf s

/-- CLEAR (R92): the fill takes effect at once and is not undone by a failure (D23); then a full update in INIT mode. -/
def execClear (s : State) : Host.Outcome State Fault Refusal :=
  fullUpdate Config.modeInit { s with fb := white s.params }

end Sys2Proof.Machine
end

