-- ==== Sys2Proof/Machine/Dispatch.lean ====
section
/-! DEFINITION. One arm per command of spec/opcode_table.json. -/

namespace Sys2Proof.Machine

/-- The meaning of a command (R105). -/
def exec (i : Instr) (s : State) : Host.Outcome State Fault Refusal :=
  match i with
  | .pack2 => Sys2Proof.Machine.execPack2 s
  | .pack3 => Sys2Proof.Machine.execPack3 s
  | .pack4 => Sys2Proof.Machine.execPack4 s
  | .pack8 => Sys2Proof.Machine.execPack8 s
  | .wfull mode => Sys2Proof.Machine.execWFull mode s
  | .wpart mode => Sys2Proof.Machine.execWPart mode s
  | .clear => Sys2Proof.Machine.execClear s

end Sys2Proof.Machine
end

