-- ==== Sys2Proof/Machine/HostAccess.lean ====
section
/-! DEFINITION. The host's transactions (42_host_access.md), command issue and the reset input: what one step does. -/

namespace Sys2Proof.Machine

/-- The value of a register, none where a read is a bus error (R101): CMD is write-only (R18). -/
def regValue (r : Reg) (s : State) : Option Word :=
  match r with
  | .cmd => none
  | .status => some (statusWord s)
  | .dimW => some s.params.W
  | .dimH => some s.params.H
  | .fmt => some (s.params.updFmt.code.setWidth 16)
  | .pw => some s.pw
  | .stage i => some (s.stage[i].setWidth 16)

/-- `RegRead(a)` (R101): no state changes; the host gets the value or the error response (R106). -/
def regRead (a : Addr) (s : State) : State :=
  match (regAt a).bind (regValue · s) with
  | some v => reply (.word v) s
  | none => reply .busError s

/-- `RegWrite(a, v)` for `a != 0x00` (R102): a staging register takes `v[7:0]`; everything else is a bus error. -/
def regWrite (a : Addr) (v : Word) (s : State) : State :=
  match regAt a with
  | some (.stage i) => reply .done { s with stage := s.stage.set i (v.setWidth 8) }
  | _ => reply .busError s

/-- `FbRead(a)` (R103). -/
def fbRead (a : Addr) (s : State) : State :=
  if a.toNat < s.params.size then reply (.sample (s.fb.read a.toNat)) s else reply .busError s

/-- `FbWrite(a, v)` (R104). -/
def fbWrite (a : Addr) (v : Byte) (s : State) : State :=
  if a.toNat < s.params.size then reply .done { s with fb := s.fb.write a.toNat v } else reply .busError s

/-- A read of `width` bits: `REG` takes 16, `FBS` takes 8, any other width is a bus error (R36). -/
def hostRead (space : Space) (a : Addr) (width : Nat) (s : State) : State :=
  match space with
  | .reg => if width = 16 then regRead a s else reply .busError s
  | .fbs => if width = 8 then fbRead a s else reply .busError s

/-- The write to CMD (R105): a legal word runs its command, a reserved word raises ILLEGAL_CMD (R111); the write
completes when the command has ended (R107). -/
def issue (word : Word) (s : State) : Host.Outcome State Fault Refusal :=
  match decode word with
  | .command i =>
    match exec i s with
    | .next t => .next (completeIssue t)
    | .fault f => .fault f
    | .refused r => .refused r
  | .reserved _ => .next (completeIssue (raiseErr .illegalCmd s))

/-- A write of `width` bits (R36, R102, R104, R105). -/
def hostWrite (space : Space) (a : Addr) (width : Nat) (v : Word) (s : State) : Host.Outcome State Fault Refusal :=
  match space with
  | .reg =>
    if width = 16 then (if a = 0x00 then issue v s else .next (regWrite a v s)) else .next (reply .busError s)
  | .fbs => if width = 8 then .next (fbWrite a (v.setWidth 8) s) else .next (reply .busError s)

/-- The reset input (R125): illegal parameters are refused (R4). -/
def resetInput (p : Params) (contents : List Byte) (s : State) : Host.Outcome State Fault Refusal :=
  if p.wf then .next (resetBlock p contents s) else .refused .illFormedParams

/-- A step of a block with no command running: the host's next transaction or reset; with none the block waits (R13,
R137). -/
def hostTurn (s : State) : Host.Outcome State Fault Refusal :=
  match s.host with
  | [] => .next s
  | .read space a width :: rest => .next (hostRead space a width { s with host := rest })
  | .write space a width v :: rest => hostWrite space a width v { s with host := rest }
  | .reset p contents :: rest => resetInput p contents { s with host := rest }

/-- A step of a block whose command waits for the sink: the reset input abandons it (R129), the host's transactions
have to wait (R107), the command looks at the sink again (R124). -/
def waitTurn (p : Pending) (s : State) : Host.Outcome State Fault Refusal :=
  match s.host with
  | .reset q contents :: rest => resetInput q contents { s with host := rest }
  | _ => .next (completeIssue (resume p s))

/-- One step: one whole host transaction (R107), or a further look at a silent sink. A block with illegal parameters is
refused (R4). -/
def stepBlock (s : State) : Host.Outcome State Fault Refusal :=
  if s.params.wf then
    match s.waiting with
    | some p => waitTurn p s
    | none => hostTurn s
  else .refused .illFormedParams

/-- The host's next transaction is the write of `word` to CMD, and no command is running. -/
def placeCommand (word : Word) (s : State) : State :=
  { s with waiting := none, host := .write .reg 0x00 16 word :: s.host }

end Sys2Proof.Machine
end

