-- ==== Sys2Proof/Machine/Step.lean ====
section
/-! DEFINITION. One step of the block. -/

namespace Sys2Proof.Machine

/-- One step (R9, R107, R137). -/
def step (s : State) : Host.Outcome State Fault Refusal := stepBlock s

/-- The block fetches nothing (R13): a command comes from the host's write to CMD, so the word is put first among the
host's transactions, and a command that still waited is dropped (log 5). -/
def State.withFetchWord (s : State) (nbits w : Nat) : State := placeCommand (BitVec.ofNat 16 (w % 2 ^ nbits)) s

end Sys2Proof.Machine
end

