-- ==== Sys2Proof/Laws/PerInstr.lean ====
section
/-! SUPPORT. Facts about each command as syntax, one lemma per constructor. -/

namespace Sys2Proof.Laws.TableRow

/-- A command's word has its row's fixed bits (spec/opcode_table.json), its `OP` and `ARG` fields are the command's
(R50, R51), and the command is well formed. -/
def Statement (i : Instr) : Prop :=
  encode i &&& (tableRow i).1 = (tableRow i).2 ∧ opField (encode i) = opOf i ∧ argField (encode i) = argOf i ∧
    i.wf = true

theorem fields (op arg : Byte) : opField (op ++ arg) = op ∧ argField (op ++ arg) = arg := by
  constructor
  · rw [← BitVec.toNat_inj]
    simp only [opField, BitVec.extractLsb'_toNat, BitVec.toNat_append]
    have := op.isLt
    have := arg.isLt
    rw [Nat.shiftLeft_eq, Nat.shiftRight_eq_div_pow, ← Nat.shiftLeft_eq, ← Nat.shiftLeft_add_eq_or_of_lt arg.isLt]
    rw [Nat.shiftLeft_eq]
    omega
  · rw [← BitVec.toNat_inj]
    simp only [argField, BitVec.extractLsb'_toNat, BitVec.toNat_append]
    have := op.isLt
    have := arg.isLt
    rw [← Nat.shiftLeft_add_eq_or_of_lt arg.isLt, Nat.shiftLeft_eq, Nat.shiftRight_eq_div_pow]
    omega

theorem pack2 : Statement .pack2 := ⟨by decide, by decide, by decide, by decide⟩
theorem pack3 : Statement .pack3 := ⟨by decide, by decide, by decide, by decide⟩
theorem pack4 : Statement .pack4 := ⟨by decide, by decide, by decide, by decide⟩
theorem pack8 : Statement .pack8 := ⟨by decide, by decide, by decide, by decide⟩

theorem masked (op arg : Byte) : (op ++ arg : Word) &&& 0xFF00 = op ++ 0#8 := by
  have : (0xFF00 : Word) = BitVec.allOnes 8 ++ 0#8 := by decide
  rw [this, BitVec.and_append, BitVec.and_allOnes, BitVec.and_zero]

theorem wfull (mode : Byte) : Statement (.wfull mode) :=
  ⟨masked 0x20 mode, (fields _ _).1, (fields _ _).2, rfl⟩

theorem wpart (mode : Byte) : Statement (.wpart mode) :=
  ⟨masked 0x21 mode, (fields _ _).1, (fields _ _).2, rfl⟩

theorem clear : Statement .clear := ⟨by decide, by decide, by decide, by decide⟩

end Sys2Proof.Laws.TableRow
end

