-- ==== Sys2Proof/Safety.lean ====
section
/-! DEFINITION. The terms claims use: the invariant of the block, tokens inside the frame, what the sink answers, and the
three ways a transmission can go. -/

namespace Sys2Proof.Machine

/-- A grid of the frame (R23): canonical, and nothing listed outside the `W*H` samples. -/
structure Memory.OfFrame (m : Memory) (p : Params) : Prop where
  wf : m.wf
  inside : ∀ c ∈ m.cells, c.1 < p.size

/-- A rectangle inside the frame (R120). -/
structure Rect.InFrame (r : Rect) (p : Params) : Prop where
  columns : r.x.toNat + r.w.toNat ≤ p.W.toNat
  rows : r.y.toNat + r.h.toNat ≤ p.H.toNat

/-- All four numbers are multiples of 4 (R79). -/
def Rect.Aligned (r : Rect) : Prop :=
  r.x.toNat % 4 = 0 ∧ r.y.toNat % 4 = 0 ∧ r.w.toNat % 4 = 0 ∧ r.h.toNat % 4 = 0

/-- The sample `[x, y]` lies in the rectangle. -/
def Rect.Covers (r : Rect) (x y : Nat) : Prop :=
  (r.x.toNat ≤ x ∧ x < r.x.toNat + r.w.toNat) ∧ (r.y.toNat ≤ y ∧ y < r.y.toNat + r.h.toNat)

/-- A token's rectangle, if it has one, lies in the frame (R120). -/
def Token.InFrame (p : Params) : Token → Prop
  | .waitRdy => True
  | .loadFull => True
  | .loadArea r => r.InFrame p
  | .pixWord _ => True
  | .loadEnd => True
  | .display r _ => r.InFrame p

/-- A waiting command: it will commit a grid of the frame as `GA` and the present FrameBuffer as `PF` (R95, R107), it
does transmit, and the tokens it has left lie in the frame. -/
structure Pending.Good (q : Pending) (s : State) : Prop where
  ga : q.commit.ga.OfFrame s.params
  pf : q.commit.pf = s.fb
  noop : q.commit.noop = false
  tokens : ∀ t ∈ q.token :: q.later, t.InFrame s.params

/-- The invariant of the block: legal parameters (R4), all grids of the frame's size (R23) and canonical, ERR one of
its four codes (R60, R110), NOOP set only when a PreviousFrame is present (R15, R95), every rectangle sent inside the
frame (R120). -/
structure State.Inv (s : State) : Prop where
  params : s.params.wf
  fb : s.fb.OfFrame s.params
  ga : s.ga.OfFrame s.params
  pf : ∀ m, s.pf = some m → m.OfFrame s.params
  err : s.err.toNat ≤ 3
  noop : s.noop = true → s.pfv = true
  out : ∀ t ∈ s.out, t.token.InFrame s.params
  waiting : ∀ q, s.waiting = some q → q.Good s

/-- What the sink answers at the `n`-th look from now (R41), counted from 0; `none` is no answer. -/
def SinkPlan.look (k : SinkPlan) (n : Nat) : Option Answer := (k.script[n]?).getD k.rest

/-- The answers that remain after `n` looks. -/
def SinkPlan.after (k : SinkPlan) (n : Nat) : SinkPlan := { k with script := k.script.drop n }

/-- The sink acknowledges the next `n` tokens. -/
def SinkPlan.AcksFor (k : SinkPlan) (n : Nat) : Prop := ∀ j, j < n → k.look j = some .ack

/-- Tokens with their ACKs, as `OUT` keeps them. -/
def acked (ts : List Token) : List Sent := ts.map fun t => { token := t, answer := .ack }

/-- The three ways a command can go that has the tokens `ts` to send from the state `s` and then commits `c` (R83):
every token acknowledged, and it commits with ERR 0 (R95, R113); the first NAK at token `k`, and it ends with
BUSY_TIMEOUT if that token is WAITRDY and SINK_FAIL if not (R44, R116), nothing else changed; no answer at token `k`,
and it waits (R124). -/
def Transmits (s : State) (ts : List Token) (c : Commit) (o : Host.Outcome State Fault Refusal) : Prop :=
  (s.sink.AcksFor ts.length →
    o = .next { s with
      out := s.out ++ acked ts
      sink := s.sink.after ts.length
      ga := c.ga
      pf := some c.pf
      noop := c.noop
      err := 0
      waiting := none }) ∧
  (∀ k (hk : k < ts.length), s.sink.AcksFor k → s.sink.look k = some .nak →
    o = .next { s with
      out := s.out ++ (acked (ts.take k) ++ [{ token := ts[k], answer := .nak }])
      sink := s.sink.after (k + 1)
      err := if ts[k] = .waitRdy then 2 else 3
      waiting := none }) ∧
  (∀ k (hk : k < ts.length), s.sink.AcksFor k → s.sink.look k = none →
    o = .next { s with
      out := s.out ++ acked (ts.take k)
      sink := s.sink.after (k + 1)
      waiting := some { token := ts[k], later := ts.drop (k + 1), commit := c } })

/-- The tokens of one transmission (R83) whose sample `j` is `sample j`: WAITRDY, the load token, one PIXWORD per group
of `SPW` of the `n` samples, LOAD_END, DISPLAY. -/
def sendTokens (fmt : PixelFormat) (load : Token) (n : Nat) (sample : Nat → Byte) (r : Rect) (mode : Byte) :
    List Token :=
  [.waitRdy, load] ++
    (List.range (n / spw fmt)).map (fun k => .pixWord (packWord fmt fun i => sample (k * spw fmt + i))) ++
    [.loadEnd, .display r mode]

/-- The tokens of a full update of the frame `F` (R84): the samples in `FBS` order, not binarised (R97). -/
def fullTokens (p : Params) (F : Memory) (mode : Byte) : List Token :=
  sendTokens p.updFmt .loadFull p.size F.read { x := 0, y := 0, w := p.W, h := p.H } mode

/-- Sample `j` of the rectangle in row-major order (R80). -/
def rectSample (p : Params) (F : Memory) (r : Rect) (j : Nat) : Byte :=
  F.at p.W.toNat (r.x.toNat + j % r.w.toNat) (r.y.toNat + j / r.w.toNat)

/-- The tokens of a partial update of a rectangle of `F` (R91): binarised in DU mode. -/
def areaTokens (p : Params) (F : Memory) (r : Rect) (mode : Byte) : List Token :=
  sendTokens p.updFmt (.loadArea r) (r.w.toNat * r.h.toNat)
    (fun j => if mode = 1 then (if 0x80 ≤ (rectSample p F r j).toNat then 0xFF else 0x00) else rectSample p F r j)
    r mode

/-- `[x, y]` is a sample a partial update has to refresh against `pf` (R88, R89): it differs from PreviousFrame, or, in a
mode that is not DU, GrayAccumulator remembers it. -/
def Dirty (s : State) (pf : Memory) (mode : Byte) (x y : Nat) : Prop :=
  x < s.params.W.toNat ∧ y < s.params.H.toNat ∧
    (pf.at s.params.W.toNat x y ≠ s.fb.at s.params.W.toNat x y ∨
      (mode ≠ 1 ∧ s.ga.at s.params.W.toNat x y ≠ 0))

/-- The same token with the mode `m` in a DISPLAY (R98). -/
def Token.withMode (m : Byte) : Token → Token
  | .waitRdy => .waitRdy
  | .loadFull => .loadFull
  | .loadArea r => .loadArea r
  | .pixWord w => .pixWord w
  | .loadEnd => .loadEnd
  | .display r _ => .display r m

/-- The host's next input is not the reset input (R125). -/
def State.NoReset (s : State) : Prop := ∀ p l rest, s.host ≠ .reset p l :: rest

/-- The command is a PACK command. -/
def IsPack (i : Instr) : Prop := i = .pack2 ∨ i = .pack3 ∨ i = .pack4 ∨ i = .pack8

end Sys2Proof.Machine
end

