-- ==== Sys2Proof/Laws/State.lean ====
section
/-! SUPPORT. One lemma per field per update of the state, so that no later proof unfolds an update. -/

namespace Sys2Proof.Machine

@[simp] theorem raiseErr_params (e : Err) (s : State) : (raiseErr e s).params = s.params := rfl
@[simp] theorem raiseErr_stage (e : Err) (s : State) : (raiseErr e s).stage = s.stage := rfl
@[simp] theorem raiseErr_pw (e : Err) (s : State) : (raiseErr e s).pw = s.pw := rfl
@[simp] theorem raiseErr_noop (e : Err) (s : State) : (raiseErr e s).noop = s.noop := rfl
@[simp] theorem raiseErr_err (e : Err) (s : State) : (raiseErr e s).err = e.code := rfl
@[simp] theorem raiseErr_fb (e : Err) (s : State) : (raiseErr e s).fb = s.fb := rfl
@[simp] theorem raiseErr_pf (e : Err) (s : State) : (raiseErr e s).pf = s.pf := rfl
@[simp] theorem raiseErr_ga (e : Err) (s : State) : (raiseErr e s).ga = s.ga := rfl
@[simp] theorem raiseErr_out (e : Err) (s : State) : (raiseErr e s).out = s.out := rfl
@[simp] theorem raiseErr_waiting (e : Err) (s : State) : (raiseErr e s).waiting = none := rfl
@[simp] theorem raiseErr_host (e : Err) (s : State) : (raiseErr e s).host = s.host := rfl
@[simp] theorem raiseErr_sink (e : Err) (s : State) : (raiseErr e s).sink = s.sink := rfl
@[simp] theorem raiseErr_replies (e : Err) (s : State) : (raiseErr e s).replies = s.replies := rfl

@[simp] theorem commit_params (c : Commit) (s : State) : (commit c s).params = s.params := rfl
@[simp] theorem commit_stage (c : Commit) (s : State) : (commit c s).stage = s.stage := rfl
@[simp] theorem commit_pw (c : Commit) (s : State) : (commit c s).pw = s.pw := rfl
@[simp] theorem commit_noop (c : Commit) (s : State) : (commit c s).noop = c.noop := rfl
@[simp] theorem commit_err (c : Commit) (s : State) : (commit c s).err = 0 := rfl
@[simp] theorem commit_fb (c : Commit) (s : State) : (commit c s).fb = s.fb := rfl
@[simp] theorem commit_pf (c : Commit) (s : State) : (commit c s).pf = some c.pf := rfl
@[simp] theorem commit_ga (c : Commit) (s : State) : (commit c s).ga = c.ga := rfl
@[simp] theorem commit_out (c : Commit) (s : State) : (commit c s).out = s.out := rfl
@[simp] theorem commit_waiting (c : Commit) (s : State) : (commit c s).waiting = none := rfl
@[simp] theorem commit_host (c : Commit) (s : State) : (commit c s).host = s.host := rfl
@[simp] theorem commit_sink (c : Commit) (s : State) : (commit c s).sink = s.sink := rfl
@[simp] theorem commit_replies (c : Commit) (s : State) : (commit c s).replies = s.replies := rfl

@[simp] theorem clearErr_params (s : State) : (clearErr s).params = s.params := rfl
@[simp] theorem clearErr_stage (s : State) : (clearErr s).stage = s.stage := rfl
@[simp] theorem clearErr_pw (s : State) : (clearErr s).pw = s.pw := rfl
@[simp] theorem clearErr_noop (s : State) : (clearErr s).noop = s.noop := rfl
@[simp] theorem clearErr_err (s : State) : (clearErr s).err = 0 := rfl
@[simp] theorem clearErr_fb (s : State) : (clearErr s).fb = s.fb := rfl
@[simp] theorem clearErr_pf (s : State) : (clearErr s).pf = s.pf := rfl
@[simp] theorem clearErr_ga (s : State) : (clearErr s).ga = s.ga := rfl
@[simp] theorem clearErr_out (s : State) : (clearErr s).out = s.out := rfl
@[simp] theorem clearErr_waiting (s : State) : (clearErr s).waiting = s.waiting := rfl
@[simp] theorem clearErr_host (s : State) : (clearErr s).host = s.host := rfl
@[simp] theorem clearErr_sink (s : State) : (clearErr s).sink = s.sink := rfl
@[simp] theorem clearErr_replies (s : State) : (clearErr s).replies = s.replies := rfl

@[simp] theorem reply_params (r : Reply) (s : State) : (reply r s).params = s.params := rfl
@[simp] theorem reply_stage (r : Reply) (s : State) : (reply r s).stage = s.stage := rfl
@[simp] theorem reply_pw (r : Reply) (s : State) : (reply r s).pw = s.pw := rfl
@[simp] theorem reply_noop (r : Reply) (s : State) : (reply r s).noop = s.noop := rfl
@[simp] theorem reply_err (r : Reply) (s : State) : (reply r s).err = s.err := rfl
@[simp] theorem reply_fb (r : Reply) (s : State) : (reply r s).fb = s.fb := rfl
@[simp] theorem reply_pf (r : Reply) (s : State) : (reply r s).pf = s.pf := rfl
@[simp] theorem reply_ga (r : Reply) (s : State) : (reply r s).ga = s.ga := rfl
@[simp] theorem reply_out (r : Reply) (s : State) : (reply r s).out = s.out := rfl
@[simp] theorem reply_waiting (r : Reply) (s : State) : (reply r s).waiting = s.waiting := rfl
@[simp] theorem reply_host (r : Reply) (s : State) : (reply r s).host = s.host := rfl
@[simp] theorem reply_sink (r : Reply) (s : State) : (reply r s).sink = s.sink := rfl
@[simp] theorem reply_replies (r : Reply) (s : State) : (reply r s).replies = s.replies ++ [r] := rfl

@[simp] theorem placeCommand_params (w : Word) (s : State) : (placeCommand w s).params = s.params := rfl
@[simp] theorem placeCommand_stage (w : Word) (s : State) : (placeCommand w s).stage = s.stage := rfl
@[simp] theorem placeCommand_pw (w : Word) (s : State) : (placeCommand w s).pw = s.pw := rfl
@[simp] theorem placeCommand_noop (w : Word) (s : State) : (placeCommand w s).noop = s.noop := rfl
@[simp] theorem placeCommand_err (w : Word) (s : State) : (placeCommand w s).err = s.err := rfl
@[simp] theorem placeCommand_fb (w : Word) (s : State) : (placeCommand w s).fb = s.fb := rfl
@[simp] theorem placeCommand_pf (w : Word) (s : State) : (placeCommand w s).pf = s.pf := rfl
@[simp] theorem placeCommand_ga (w : Word) (s : State) : (placeCommand w s).ga = s.ga := rfl
@[simp] theorem placeCommand_out (w : Word) (s : State) : (placeCommand w s).out = s.out := rfl
@[simp] theorem placeCommand_waiting (w : Word) (s : State) : (placeCommand w s).waiting = none := rfl
@[simp] theorem placeCommand_host (w : Word) (s : State) : (placeCommand w s).host = .write .reg 0x00 16 w :: s.host := rfl
@[simp] theorem placeCommand_sink (w : Word) (s : State) : (placeCommand w s).sink = s.sink := rfl
@[simp] theorem placeCommand_replies (w : Word) (s : State) : (placeCommand w s).replies = s.replies := rfl

@[simp] theorem resetBlock_params (p : Params) (l : List Byte) (s : State) : (resetBlock p l s).params = p := rfl
@[simp] theorem resetBlock_stage (p : Params) (l : List Byte) (s : State) : (resetBlock p l s).stage = Vector.replicate 8 0 := rfl
@[simp] theorem resetBlock_pw (p : Params) (l : List Byte) (s : State) : (resetBlock p l s).pw = 0 := rfl
@[simp] theorem resetBlock_noop (p : Params) (l : List Byte) (s : State) : (resetBlock p l s).noop = false := rfl
@[simp] theorem resetBlock_err (p : Params) (l : List Byte) (s : State) : (resetBlock p l s).err = 0 := rfl
@[simp] theorem resetBlock_fb (p : Params) (l : List Byte) (s : State) : (resetBlock p l s).fb = launchContents p l := rfl
@[simp] theorem resetBlock_pf (p : Params) (l : List Byte) (s : State) : (resetBlock p l s).pf = none := rfl
@[simp] theorem resetBlock_ga (p : Params) (l : List Byte) (s : State) : (resetBlock p l s).ga = .zero := rfl
@[simp] theorem resetBlock_out (p : Params) (l : List Byte) (s : State) : (resetBlock p l s).out = [] := rfl
@[simp] theorem resetBlock_waiting (p : Params) (l : List Byte) (s : State) : (resetBlock p l s).waiting = none := rfl
@[simp] theorem resetBlock_host (p : Params) (l : List Byte) (s : State) : (resetBlock p l s).host = s.host := rfl
@[simp] theorem resetBlock_sink (p : Params) (l : List Byte) (s : State) : (resetBlock p l s).sink = s.sink := rfl
@[simp] theorem resetBlock_replies (p : Params) (l : List Byte) (s : State) : (resetBlock p l s).replies = s.replies := rfl

@[simp] theorem completeIssue_params (s : State) : (completeIssue s).params = s.params := by
  unfold completeIssue; split <;> rfl
@[simp] theorem completeIssue_stage (s : State) : (completeIssue s).stage = s.stage := by
  unfold completeIssue; split <;> rfl
@[simp] theorem completeIssue_pw (s : State) : (completeIssue s).pw = s.pw := by
  unfold completeIssue; split <;> rfl
@[simp] theorem completeIssue_noop (s : State) : (completeIssue s).noop = s.noop := by
  unfold completeIssue; split <;> rfl
@[simp] theorem completeIssue_err (s : State) : (completeIssue s).err = s.err := by
  unfold completeIssue; split <;> rfl
@[simp] theorem completeIssue_fb (s : State) : (completeIssue s).fb = s.fb := by
  unfold completeIssue; split <;> rfl
@[simp] theorem completeIssue_pf (s : State) : (completeIssue s).pf = s.pf := by
  unfold completeIssue; split <;> rfl
@[simp] theorem completeIssue_ga (s : State) : (completeIssue s).ga = s.ga := by
  unfold completeIssue; split <;> rfl
@[simp] theorem completeIssue_out (s : State) : (completeIssue s).out = s.out := by
  unfold completeIssue; split <;> rfl
@[simp] theorem completeIssue_waiting (s : State) : (completeIssue s).waiting = s.waiting := by
  unfold completeIssue; split <;> rfl
@[simp] theorem completeIssue_host (s : State) : (completeIssue s).host = s.host := by
  unfold completeIssue; split <;> rfl
@[simp] theorem completeIssue_sink (s : State) : (completeIssue s).sink = s.sink := by
  unfold completeIssue; split <;> rfl

/-- A command that has ended completes the write to CMD. -/
theorem completeIssue_of_ended {s : State} (h : s.waiting = none) : completeIssue s = reply .done s := by
  simp [completeIssue, h]

/-- A command that waits does not. -/
theorem completeIssue_of_waiting {s : State} {q : Pending} (h : s.waiting = some q) : completeIssue s = s := by
  simp [completeIssue, h]

end Sys2Proof.Machine
end

