-- ==== Sys2Proof/Laws/Codec.lean ====
section
/-! SUPPORT. The packer's functions: the length of a packed sequence and its words, the packed word of one sample
repeated. -/

namespace Sys2Proof.Machine

theorem spw_pos (fmt : PixelFormat) : 0 < spw fmt := by cases fmt <;> decide

theorem spw_dvd_sixteen (fmt : PixelFormat) : 16 % spw fmt = 0 := by cases fmt <;> rfl

theorem packSeq_of_dvd {fmt : PixelFormat} {l : List Byte} (h : l.length % spw fmt = 0) :
    packSeq fmt l =
      some ((List.range (l.length / spw fmt)).map fun k => packWord fmt fun i => l.getD (k * spw fmt + i) 0) :=
  if_pos h

theorem packSeq_undefined {fmt : PixelFormat} {l : List Byte} (h : l.length % spw fmt ≠ 0) : packSeq fmt l = none :=
  if_neg h

/-- One turn of a pack loop, as a number: the word moves up by `k` bits and the field enters below (R66 to R68). -/
theorem toNat_shiftIn (word field : Word) {k : Nat} (h : field.toNat < 2 ^ k) (hk : k ≤ 16) :
    ((word <<< k) ||| field).toNat = word.toNat * 2 ^ k % 2 ^ 16 + field.toNat := by
  have h16 : (2 : Nat) ^ 16 = 2 ^ k * 2 ^ (16 - k) := by rw [← Nat.pow_add]; congr 1; omega
  rw [BitVec.toNat_or, BitVec.toNat_shiftLeft, Nat.shiftLeft_eq, h16, Nat.mul_comm word.toNat, Nat.mul_mod_mul_left]
  rw [Nat.mul_comm (2 ^ k), ← Nat.shiftLeft_eq, Nat.shiftLeft_add_eq_or_of_lt h]

/-- Two fields side by side, as a number. -/
theorem toNat_fields {m n : Nat} (x : BitVec m) (y : BitVec n) : (x ++ y).toNat = x.toNat * 2 ^ n + y.toNat := by
  rw [BitVec.toNat_append, ← Nat.shiftLeft_add_eq_or_of_lt y.isLt, Nat.shiftLeft_eq]

/-- A field of a sample, as a number. -/
theorem toNat_field (b : Byte) (k n : Nat) : (b.extractLsb' k n).toNat = b.toNat / 2 ^ k % 2 ^ n := by
  simp [BitVec.extractLsb'_toNat, Nat.shiftRight_eq_div_pow]

/-- A packed word depends on the samples of its group only. -/
theorem packWord_congr {fmt : PixelFormat} {g g' : Nat → Byte} (h : ∀ i, i < spw fmt → g i = g' i) :
    packWord fmt g = packWord fmt g' := by
  cases fmt <;> simp only [spw] at h <;> simp only [packWord]
  · simp only [h 0 (by omega), h 1 (by omega), h 2 (by omega), h 3 (by omega), h 4 (by omega), h 5 (by omega),
      h 6 (by omega), h 7 (by omega)]
  · simp only [h 0 (by omega), h 1 (by omega), h 2 (by omega), h 3 (by omega)]
  · simp only [h 0 (by omega), h 1 (by omega), h 2 (by omega), h 3 (by omega)]
  · simp only [h 0 (by omega), h 1 (by omega)]

/-- A sequence given by its samples, of a length the format divides, packs to the words of its groups. -/
theorem packSeq_map_range {fmt : PixelFormat} {n : Nat} (h : n % spw fmt = 0) (f : Nat → Byte) :
    packSeq fmt ((List.range n).map f) =
      some ((List.range (n / spw fmt)).map fun k => packWord fmt fun i => f (k * spw fmt + i)) := by
  rw [packSeq_of_dvd (by simpa using h)]
  simp only [List.length_map, List.length_range, Option.some.injEq]
  refine List.map_congr_left fun k hk => packWord_congr fun i hi => ?_
  have hk' : k < n / spw fmt := List.mem_range.mp hk
  have hlt : k * spw fmt + i < n := by
    have h1 : (k + 1) * spw fmt ≤ n / spw fmt * spw fmt := Nat.mul_le_mul_right _ hk'
    have h2 := Nat.div_mul_le_self n (spw fmt)
    have h3 : (k + 1) * spw fmt = k * spw fmt + spw fmt := Nat.succ_mul _ _
    omega
  simp [List.getD_eq_getElem?_getD, hlt]

end Sys2Proof.Machine
end

