-- ==== Sys2Proof/Laws/Memory.lean ====
section
/-! SUPPORT. The laws of memories: a read after a write, a read of a tabulated grid, the canonical form kept, and equal
reads give equal memories. -/

namespace Sys2Proof.Machine

/-- Addresses strictly rising. -/
abbrev Rising (cs : List Host.Cell) : Prop := cs.Pairwise fun c d => c.1 < d.1

theorem readCells_eq_unlisted {cs : List Host.Cell} {a : Nat} (h : ∀ c ∈ cs, c.1 ≠ a) :
    readCells cs a = unlisted := by
  induction cs with
  | nil => rfl
  | cons c cs ih =>
    simp only [readCells, h c (by simp), ↓reduceIte]
    exact ih fun d hd => h d (by simp [hd])

theorem readCells_of_mem {cs : List Host.Cell} (hr : Rising cs) {a : Nat} {v : Byte} (h : (a, v) ∈ cs) :
    readCells cs a = v := by
  induction cs with
  | nil => cases h
  | cons c cs ih =>
    obtain ⟨hc, hr⟩ := List.pairwise_cons.mp hr
    rcases List.mem_cons.mp h with rfl | h
    · simp [readCells]
    · have := hc _ h
      simp only at this
      have hne : c.1 ≠ a := by omega
      simp only [readCells, hne, ↓reduceIte]
      exact ih hr h

theorem mem_of_readCells_ne {cs : List Host.Cell} {a : Nat} (h : readCells cs a ≠ unlisted) :
    (a, readCells cs a) ∈ cs := by
  induction cs with
  | nil => exact absurd rfl h
  | cons c cs ih =>
    obtain ⟨k, v⟩ := c
    by_cases hk : k = a
    · simp [readCells, hk]
    · simp only [readCells, hk, ↓reduceIte] at h ⊢
      exact List.mem_cons_of_mem _ (ih h)

/-- Two canonical lists of cells that read the same everywhere are the same list. -/
theorem cells_ext : ∀ {cs ds : List Host.Cell}, Rising cs → Rising ds → (∀ c ∈ cs, c.2 ≠ unlisted) →
    (∀ d ∈ ds, d.2 ≠ unlisted) → (∀ a, readCells cs a = readCells ds a) → cs = ds
  | [], [], _, _, _, _, _ => rfl
  | [], (a, v) :: ds, _, _, _, hd, h => by
    have := h a
    simp [readCells] at this
    exact absurd this.symm (hd (a, v) (by simp))
  | (a, v) :: cs, [], _, _, hc, _, h => by
    have := h a
    simp [readCells] at this
    exact absurd this (hc (a, v) (by simp))
  | (a, v) :: cs, (b, w) :: ds, hrc, hrd, hc, hd, h => by
    obtain ⟨hca, hrc'⟩ := List.pairwise_cons.mp hrc
    obtain ⟨hdb, hrd'⟩ := List.pairwise_cons.mp hrd
    have hva : v ≠ unlisted := hc (a, v) (by simp)
    have hwb : w ≠ unlisted := hd (b, w) (by simp)
    have hab : a = b := by
      rcases Nat.lt_trichotomy a b with hlt | heq | hlt
      · have h1 := h a
        rw [readCells_eq_unlisted (cs := (b, w) :: ds)] at h1
        · simp [readCells] at h1
          exact absurd h1 hva
        · intro d hmem
          rcases List.mem_cons.mp hmem with rfl | hmem
          · simp; omega
          · have := hdb _ hmem; simp only at this; omega
      · exact heq
      · have h1 := h b
        rw [readCells_eq_unlisted (cs := (a, v) :: cs)] at h1
        · simp [readCells] at h1
          exact absurd h1.symm hwb
        · intro d hmem
          rcases List.mem_cons.mp hmem with rfl | hmem
          · simp; omega
          · have := hca _ hmem; simp only at this; omega
    subst hab
    have hvw : v = w := by simpa [readCells] using h a
    subst hvw
    congr 1
    refine cells_ext hrc' hrd' (fun c hm => hc c (by simp [hm])) (fun d hm => hd d (by simp [hm])) fun x => ?_
    by_cases hx : a = x
    · subst hx
      rw [readCells_eq_unlisted fun d hm => ?_, readCells_eq_unlisted fun d hm => ?_]
      · have := hdb d hm; simp only at this; omega
      · have := hca d hm; simp only at this; omega
    · simpa [readCells, hx] using h x

/-- Canonical memories that read the same everywhere are equal. -/
theorem Memory.ext_read {m n : Memory} (hm : m.wf) (hn : n.wf) (h : ∀ a, m.read a = n.read a) : m = n := by
  obtain ⟨cs⟩ := m
  obtain ⟨ds⟩ := n
  exact congrArg Memory.mk (cells_ext hm.1 hn.1 hm.2 hn.2 h)

@[simp] theorem Memory.read_zero (a : Nat) : Memory.zero.read a = unlisted := rfl

theorem Memory.wf_zero : Memory.zero.wf := ⟨.nil, fun _ h => by cases h⟩

theorem Memory.ofFrame_zero (p : Params) : Memory.zero.OfFrame p := ⟨wf_zero, by simp [Memory.zero]⟩

/-- A grid of the frame holds nothing outside it. -/
theorem Memory.OfFrame.read_outside {m : Memory} {p : Params} (h : m.OfFrame p) {a : Nat} (ha : p.size ≤ a) :
    m.read a = unlisted :=
  readCells_eq_unlisted fun c hc => by have := h.inside c hc; omega

/-- Grids of one frame that read the same inside it are equal. -/
theorem Memory.OfFrame.ext {m n : Memory} {p : Params} (hm : m.OfFrame p) (hn : n.OfFrame p)
    (h : ∀ a, a < p.size → m.read a = n.read a) : m = n :=
  Memory.ext_read hm.wf hn.wf fun a => by
    rcases Nat.lt_or_ge a p.size with ha | ha
    · exact h a ha
    · rw [hm.read_outside ha, hn.read_outside ha]

theorem mem_tabulate {n : Nat} {f : Nat → Byte} {c : Host.Cell} :
    c ∈ (Memory.tabulate n f).cells ↔ c.1 < n ∧ c.2 = f c.1 ∧ c.2 ≠ unlisted := by
  obtain ⟨a, v⟩ := c
  simp only [Memory.tabulate, List.mem_filterMap, List.mem_range]
  constructor
  · rintro ⟨b, hb, h⟩
    split at h
    · cases h
    · cases h; exact ⟨hb, rfl, by assumption⟩
  · rintro ⟨hb, rfl, hne⟩
    exact ⟨a, hb, if_neg hne⟩

theorem Memory.wf_tabulate (n : Nat) (f : Nat → Byte) : (Memory.tabulate n f).wf := by
  refine ⟨?_, fun c hc => (mem_tabulate.mp hc).2.2⟩
  refine List.Pairwise.filterMap _ ?_ (List.pairwise_lt_range (n := n))
  intro a b hab c hc d hd
  split at hc
  · cases hc
  · split at hd
    · cases hd
    · cases hc; cases hd; exact hab

theorem Memory.ofFrame_tabulate (p : Params) (f : Nat → Byte) : (Memory.tabulate p.size f).OfFrame p :=
  ⟨wf_tabulate _ _, fun _ hc => (mem_tabulate.mp hc).1⟩

/-- What a tabulated grid reads as. -/
theorem Memory.read_tabulate (n : Nat) (f : Nat → Byte) (a : Nat) :
    (Memory.tabulate n f).read a = if a < n then f a else unlisted := by
  have hr : Rising (Memory.tabulate n f).cells := (wf_tabulate n f).1
  by_cases h : a < n ∧ f a ≠ unlisted
  · rw [if_pos h.1]
    exact readCells_of_mem hr (mem_tabulate.mpr ⟨h.1, rfl, h.2⟩)
  · have : (Memory.tabulate n f).read a = unlisted := readCells_eq_unlisted fun c hc => by
      rintro rfl
      obtain ⟨h1, h2, h3⟩ := mem_tabulate.mp hc
      exact h ⟨h1, h2 ▸ h3⟩
    rw [this]
    split
    · rename_i ha
      by_contra hne
      exact h ⟨ha, fun h' => hne h'.symm⟩
    · rfl

theorem mem_writeCells {cs : List Host.Cell} {a : Nat} {v : Byte} {c : Host.Cell} (h : c ∈ writeCells cs a v) :
    (c = (a, v) ∧ v ≠ unlisted) ∨ c ∈ cs := by
  induction cs with
  | nil =>
    simp only [writeCells] at h
    split at h <;> simp_all
  | cons d cs ih =>
    obtain ⟨k, w⟩ := d
    simp only [writeCells] at h
    split at h
    · split at h <;> simp_all
    · split at h
      · split at h
        · exact .inr (List.mem_cons_of_mem _ h)
        · rcases List.mem_cons.mp h with h | h
          · exact .inl ⟨h, by assumption⟩
          · exact .inr (List.mem_cons_of_mem _ h)
      · rcases List.mem_cons.mp h with rfl | h
        · simp
        · rcases ih h with h | h
          · exact .inl h
          · exact .inr (List.mem_cons_of_mem _ h)

theorem rising_writeCells {cs : List Host.Cell} (hr : Rising cs) (a : Nat) (v : Byte) :
    Rising (writeCells cs a v) := by
  induction cs with
  | nil => simp only [writeCells]; split <;> simp
  | cons d cs ih =>
    obtain ⟨k, w⟩ := d
    obtain ⟨hd, hr'⟩ := List.pairwise_cons.mp hr
    simp only [writeCells]
    split
    · rename_i hlt
      split
      · exact hr
      · refine List.pairwise_cons.mpr ⟨fun c hc => ?_, hr⟩
        rcases List.mem_cons.mp hc with rfl | hc
        · exact hlt
        · have := hd c hc; simp only at this ⊢; omega
    · split
      · rename_i heq
        split
        · exact hr'
        · exact List.pairwise_cons.mpr ⟨fun c hc => by have := hd c hc; simp only at this ⊢; omega, hr'⟩
      · refine List.pairwise_cons.mpr ⟨fun c hc => ?_, ih hr'⟩
        rcases mem_writeCells hc with ⟨rfl, -⟩ | hc
        · simp only; omega
        · exact hd c hc

/-- A write keeps the canonical form. -/
theorem Memory.wf_write {m : Memory} (h : m.wf) (a : Nat) (v : Byte) : (m.write a v).wf := by
  refine ⟨rising_writeCells h.1 a v, fun c hc => ?_⟩
  rcases mem_writeCells hc with ⟨rfl, hv⟩ | hc
  · exact hv
  · exact h.2 c hc

/-- A write inside the frame keeps a grid of the frame. -/
theorem Memory.OfFrame.write {m : Memory} {p : Params} (h : m.OfFrame p) {a : Nat} (ha : a < p.size) (v : Byte) :
    (m.write a v).OfFrame p := by
  refine ⟨wf_write h.wf a v, fun c hc => ?_⟩
  rcases mem_writeCells hc with ⟨rfl, -⟩ | hc
  · exact ha
  · exact h.inside c hc

theorem readCells_writeCells {cs : List Host.Cell} (hr : Rising cs) (a : Nat) (v : Byte) (b : Nat) :
    readCells (writeCells cs a v) b = if b = a then v else readCells cs b := by
  induction cs with
  | nil =>
    simp only [writeCells]
    by_cases hv : v = unlisted <;> by_cases hb : b = a <;> simp [hv, hb, readCells]
    exact fun h => absurd h.symm hb
  | cons d cs ih =>
    obtain ⟨k, w⟩ := d
    obtain ⟨hd, hr'⟩ := List.pairwise_cons.mp hr
    have above : ∀ x, x ≤ k → readCells cs x = unlisted := fun x hx => readCells_eq_unlisted fun c hc => by
      have := hd c hc; simp only at this; omega
    simp only [writeCells]
    by_cases hlt : a < k
    · simp only [hlt, ↓reduceIte]
      by_cases hv : v = unlisted
      · simp only [hv, ↓reduceIte]
        by_cases hb : b = a
        · subst hb
          have : k ≠ b := by omega
          simp [readCells, this, above b (by omega)]
        · simp [hb]
      · simp only [hv, ↓reduceIte]
        by_cases hb : b = a
        · simp [hb, readCells]
        · have : a ≠ b := fun h => hb h.symm
          simp [hb, readCells, this]
    · simp only [hlt, ↓reduceIte]
      by_cases heq : a = k
      · subst heq
        simp only [↓reduceIte]
        by_cases hv : v = unlisted
        · simp only [hv, ↓reduceIte]
          by_cases hb : b = a
          · simp [hb, above a (Nat.le_refl _)]
          · have : a ≠ b := fun h => hb h.symm
            simp [hb, readCells, this]
        · simp only [hv, ↓reduceIte]
          by_cases hb : b = a
          · simp [hb, readCells]
          · have : a ≠ b := fun h => hb h.symm
            simp [hb, readCells, this]
      · simp only [heq, ↓reduceIte, readCells]
        by_cases hk : k = b
        · have : b ≠ a := by omega
          simp [hk, this]
        · simp [hk, ih hr']

/-- A read after a write. -/
theorem Memory.read_write {m : Memory} (h : m.wf) (a : Nat) (v : Byte) (b : Nat) :
    (m.write a v).read b = if b = a then v else m.read b :=
  readCells_writeCells h.1 a v b

theorem white_ofFrame (p : Params) : (white p).OfFrame p := Memory.ofFrame_tabulate p _

theorem launchContents_ofFrame (p : Params) (l : List Byte) : (launchContents p l).OfFrame p :=
  Memory.ofFrame_tabulate p _

end Sys2Proof.Machine
end

