-- ==== Sys2Proof/Laws/Region.lean ====
section
/-! SUPPORT. The region functions: what the cells of the computed grids are, what the bounding box bounds, where the
rounded box lies, and what a crop holds. -/

namespace Sys2Proof.Machine

@[simp] theorem toNat_absDiff (a b : Byte) : (absDiff a b).toNat = ((a.toNat : Int) - (b.toNat : Int)).natAbs := by
  have ha := a.isLt
  have hb := b.isLt
  simp only [absDiff, BitVec.toNat_ofNat]
  omega

@[simp] theorem toNat_satAdd (a b : Byte) : (satAdd a b).toNat = min 255 (a.toNat + b.toNat) := by
  simp only [satAdd, BitVec.toNat_ofNat]
  omega

theorem absDiff_eq_zero {a b : Byte} : absDiff a b = 0 ↔ a = b := by
  rw [← BitVec.toNat_inj, ← BitVec.toNat_inj, toNat_absDiff]
  simp
  omega

theorem satAdd_eq_zero {a b : Byte} : satAdd a b = 0 ↔ a = 0 ∧ b = 0 := by
  rw [← BitVec.toNat_inj, ← BitVec.toNat_inj, ← BitVec.toNat_inj, toNat_satAdd]
  simp

@[simp] theorem satAdd_zero (a : Byte) : satAdd a 0 = a := by
  rw [← BitVec.toNat_inj, toNat_satAdd]
  have := a.isLt
  simp
  omega

theorem absDiffGrid_ofFrame (p : Params) (A B : Memory) : (absDiffGrid p A B).OfFrame p := Memory.ofFrame_tabulate p _

theorem satAddGrid_ofFrame (p : Params) (A B : Memory) : (satAddGrid p A B).OfFrame p := Memory.ofFrame_tabulate p _

theorem read_absDiffGrid {p : Params} {a : Nat} (h : a < p.size) (A B : Memory) :
    (absDiffGrid p A B).read a = absDiff (A.read a) (B.read a) := by
  simp [absDiffGrid, Memory.read_tabulate, h]

theorem read_satAddGrid {p : Params} {a : Nat} (h : a < p.size) (A B : Memory) :
    (satAddGrid p A B).read a = satAdd (A.read a) (B.read a) := by
  simp [satAddGrid, Memory.read_tabulate, h]

/-- The difference of a frame with itself is `Zero`. -/
theorem absDiffGrid_self (p : Params) (A : Memory) : absDiffGrid p A A = .zero :=
  (absDiffGrid_ofFrame p A A).ext (Memory.ofFrame_zero p) fun a ha => by
    rw [read_absDiffGrid ha, absDiff_eq_zero.mpr rfl, Memory.read_zero]; rfl

/-- Adding `Zero` changes nothing. -/
theorem satAddGrid_zero {p : Params} {A : Memory} (h : A.OfFrame p) : satAddGrid p A .zero = A :=
  (satAddGrid_ofFrame p A .zero).ext h fun a ha => by
    rw [read_satAddGrid ha, Memory.read_zero]; exact satAdd_zero _

/-- The address of a sample of the frame lies in the frame (R31). -/
theorem address_lt {p : Params} {x y : Nat} (hx : x < p.W.toNat) (hy : y < p.H.toNat) :
    y * p.W.toNat + x < p.size := by
  have h1 : (y + 1) * p.W.toNat ≤ p.H.toNat * p.W.toNat := Nat.mul_le_mul_right _ hy
  have h2 : (y + 1) * p.W.toNat = y * p.W.toNat + p.W.toNat := Nat.succ_mul _ _
  have h3 : p.size = p.H.toNat * p.W.toNat := Nat.mul_comm _ _
  omega

theorem at_absDiffGrid {p : Params} {x y : Nat} (hx : x < p.W.toNat) (hy : y < p.H.toNat) (A B : Memory) :
    (absDiffGrid p A B).at p.W.toNat x y = absDiff (A.at p.W.toNat x y) (B.at p.W.toNat x y) :=
  read_absDiffGrid (address_lt hx hy) A B

theorem at_satAddGrid {p : Params} {x y : Nat} (hx : x < p.W.toNat) (hy : y < p.H.toNat) (A B : Memory) :
    (satAddGrid p A B).at p.W.toNat x y = satAdd (A.at p.W.toNat x y) (B.at p.W.toNat x y) :=
  read_satAddGrid (address_lt hx hy) A B

theorem mem_dirtyColumns {p : Params} {M : Memory} {x : Nat} :
    x ∈ dirtyColumns p M ↔ x < p.W.toNat ∧ ∃ y, y < p.H.toNat ∧ M.at p.W.toNat x y ≠ 0 := by
  simp [dirtyColumns]

theorem mem_dirtyRows {p : Params} {M : Memory} {y : Nat} :
    y ∈ dirtyRows p M ↔ y < p.H.toNat ∧ ∃ x, x < p.W.toNat ∧ M.at p.W.toNat x y ≠ 0 := by
  simp [dirtyRows]

theorem sorted_filter_range (n : Nat) (q : Nat → Bool) : ((List.range n).filter q).Pairwise (· < ·) :=
  (List.pairwise_lt_range (n := n)).filter q

theorem head?_le {l : List Nat} (hs : l.Pairwise (· < ·)) {a x : Nat} (h : l.head? = some a) (hx : x ∈ l) : a ≤ x := by
  cases l with
  | nil => cases h
  | cons b l =>
    cases h
    rcases List.mem_cons.mp hx with rfl | hx
    · exact Nat.le_refl _
    · exact Nat.le_of_lt ((List.pairwise_cons.mp hs).1 _ hx)

theorem le_getLast? {l : List Nat} (hs : l.Pairwise (· < ·)) {a x : Nat} (h : l.getLast? = some a) (hx : x ∈ l) :
    x ≤ a := by
  obtain ⟨l', rfl⟩ := List.getLast?_eq_some_iff.mp h
  rcases List.mem_append.mp hx with hx | hx
  · exact Nat.le_of_lt ((List.pairwise_append.mp hs).2.2 _ hx _ (by simp))
  · exact Nat.le_of_eq (List.mem_singleton.mp hx)

/-- No box exactly when every cell of the frame is 0. -/
theorem bbox_eq_none {p : Params} {M : Memory} :
    bbox p M = none ↔ ∀ x y, x < p.W.toNat → y < p.H.toNat → M.at p.W.toNat x y = 0 := by
  constructor
  · intro h x y hx hy
    by_contra hne
    have hc : x ∈ dirtyColumns p M := mem_dirtyColumns.mpr ⟨hx, y, hy, hne⟩
    have hr : y ∈ dirtyRows p M := mem_dirtyRows.mpr ⟨hy, x, hx, hne⟩
    have nc : dirtyColumns p M ≠ [] := List.ne_nil_of_mem hc
    have nr : dirtyRows p M ≠ [] := List.ne_nil_of_mem hr
    simp [bbox, List.head?_eq_some_head nc, List.getLast?_eq_some_getLast nc, List.head?_eq_some_head nr,
      List.getLast?_eq_some_getLast nr] at h
  · intro h
    have : dirtyColumns p M = [] := List.eq_nil_iff_forall_not_mem.mpr fun x hx => by
      obtain ⟨hx, y, hy, hne⟩ := mem_dirtyColumns.mp hx
      exact hne (h x y hx hy)
    simp [bbox, this]

/-- What a box bounds: its bounds are taken by non-zero cells, and every non-zero cell lies inside. -/
theorem bbox_eq_some {p : Params} {M : Memory} {b : Box} (h : bbox p M = some b) :
    b.minX ∈ dirtyColumns p M ∧ b.maxX - 1 ∈ dirtyColumns p M ∧ b.minY ∈ dirtyRows p M ∧
    b.maxY - 1 ∈ dirtyRows p M ∧ 0 < b.maxX ∧ 0 < b.maxY ∧
    (∀ x ∈ dirtyColumns p M, b.minX ≤ x ∧ x < b.maxX) ∧ (∀ y ∈ dirtyRows p M, b.minY ≤ y ∧ y < b.maxY) := by
  unfold bbox at h
  split at h
  · rename_i x0 x1 y0 y1 h0 h1 h2 h3
    cases h
    have sc := sorted_filter_range p.W.toNat fun x => (List.range p.H.toNat).any fun y => M.at p.W.toNat x y != 0
    have sr := sorted_filter_range p.H.toNat fun y => (List.range p.W.toNat).any fun x => M.at p.W.toNat x y != 0
    refine ⟨List.mem_of_head? h0, List.mem_of_getLast? h1, List.mem_of_head? h2, List.mem_of_getLast? h3,
      Nat.succ_pos _, Nat.succ_pos _, fun x hx => ⟨head?_le sc h0 hx, Nat.lt_succ_of_le (le_getLast? sc h1 hx)⟩,
      fun y hy => ⟨head?_le sr h2 hy, Nat.lt_succ_of_le (le_getLast? sr h3 hy)⟩⟩
  · cases h

/-- A box lies in the frame and is not empty (R77). -/
theorem bbox_bounds {p : Params} {M : Memory} {b : Box} (h : bbox p M = some b) :
    b.minX < b.maxX ∧ b.maxX ≤ p.W.toNat ∧ b.minY < b.maxY ∧ b.maxY ≤ p.H.toNat := by
  obtain ⟨h1, h2, h3, h4, h5, h6, h7, h8⟩ := bbox_eq_some h
  have := (mem_dirtyColumns.mp h2).1
  have := (mem_dirtyRows.mp h4).1
  have := (h7 _ h1).2
  have := (h8 _ h3).2
  omega

theorem roundDown_spec (n : Nat) : roundDown n % 4 = 0 ∧ roundDown n ≤ n ∧ n < roundDown n + 4 := by
  simp only [roundDown, Config.align]; omega

theorem roundUp_spec (n : Nat) : roundUp n % 4 = 0 ∧ n ≤ roundUp n ∧ roundUp n < n + 4 := by
  simp only [roundUp, Config.align]; omega

/-- The rectangle of a rounded box of the frame, as numbers: nothing is lost in 16 bits, all four numbers are multiples
of 4, and it lies in the frame (R78, R79, R120). -/
theorem rectOf_roundBox {p : Params} (hp : p.wf) {b : Box} (hx : b.minX < b.maxX ∧ b.maxX ≤ p.W.toNat)
    (hy : b.minY < b.maxY ∧ b.maxY ≤ p.H.toNat) :
    (rectOf (roundBox b)).x.toNat = roundDown b.minX ∧ (rectOf (roundBox b)).y.toNat = roundDown b.minY ∧
    (rectOf (roundBox b)).x.toNat + (rectOf (roundBox b)).w.toNat = roundUp b.maxX ∧
    (rectOf (roundBox b)).y.toNat + (rectOf (roundBox b)).h.toNat = roundUp b.maxY ∧
    (rectOf (roundBox b)).Aligned ∧ (rectOf (roundBox b)).InFrame p ∧
    4 ≤ (rectOf (roundBox b)).w.toNat ∧ 4 ≤ (rectOf (roundBox b)).h.toNat := by
  have := roundDown_spec b.minX
  have := roundDown_spec b.minY
  have := roundUp_spec b.maxX
  have := roundUp_spec b.maxY
  obtain ⟨⟨_, _, _⟩, ⟨_, _, _⟩⟩ := hp
  have ex : (rectOf (roundBox b)).x.toNat = roundDown b.minX := by
    simp only [rectOf, roundBox, BitVec.toNat_ofNat]; omega
  have ey : (rectOf (roundBox b)).y.toNat = roundDown b.minY := by
    simp only [rectOf, roundBox, BitVec.toNat_ofNat]; omega
  have ew : (rectOf (roundBox b)).w.toNat = roundUp b.maxX - roundDown b.minX := by
    simp only [rectOf, roundBox, BitVec.toNat_ofNat]; omega
  have eh : (rectOf (roundBox b)).h.toNat = roundUp b.maxY - roundDown b.minY := by
    simp only [rectOf, roundBox, BitVec.toNat_ofNat]; omega
  refine ⟨ex, ey, by omega, by omega, ⟨by omega, by omega, by omega, by omega⟩, ⟨by omega, by omega⟩, by omega, by omega⟩

@[simp] theorem length_crop (p : Params) (F : Memory) (r : Rect) : (crop p F r).length = r.w.toNat * r.h.toNat := by
  simp [crop]

theorem crop_eq_map (p : Params) (F : Memory) (r : Rect) :
    crop p F r = (List.range (r.w.toNat * r.h.toNat)).map (rectSample p F r) := rfl

/-- The whole frame cropped is the frame in `FBS` order (R80). -/
theorem crop_fullRect (p : Params) (F : Memory) : crop p F (fullRect p) = (List.range p.size).map F.read := by
  simp only [crop, fullRect, Params.size]
  refine List.map_congr_left fun k _ => ?_
  have h0 : (0 : Word).toNat = 0 := rfl
  simp only [Memory.at, h0, Nat.zero_add]
  rw [Nat.mul_comm, Nat.div_add_mod]

/-- The product of two multiples of 4 is a multiple of every format's ratio (R96). -/
theorem mul_mod_spw {w h : Nat} (hw : w % 4 = 0) (hh : h % 4 = 0) (fmt : PixelFormat) : w * h % spw fmt = 0 := by
  obtain ⟨a, rfl⟩ : ∃ a, w = 4 * a := ⟨w / 4, by omega⟩
  obtain ⟨b, rfl⟩ : ∃ b, h = 4 * b := ⟨h / 4, by omega⟩
  have : 4 * a * (4 * b) = 16 * (a * b) := by ring
  rw [this]
  cases fmt <;> simp only [spw] <;> omega

end Sys2Proof.Machine
end

