-- ==== Sys2Proof/Laws/Transmit.lean ====
section
/-! SUPPORT. What the token port can do, said once: the sink's looks, the three ways `transmit` goes, and what it never
changes. -/

namespace Sys2Proof.Machine

theorem poll_eq (k : SinkPlan) : k.poll = (k.look 0, k.after 1) := by
  obtain ⟨script, rest⟩ := k
  cases script <;> rfl

@[simp] theorem after_zero (k : SinkPlan) : k.after 0 = k := rfl

@[simp] theorem look_after (k : SinkPlan) (n j : Nat) : (k.after n).look j = k.look (n + j) := by
  simp [SinkPlan.look, SinkPlan.after, List.getElem?_drop]

@[simp] theorem after_after (k : SinkPlan) (n j : Nat) : (k.after n).after j = k.after (n + j) := by
  simp [SinkPlan.after, List.drop_drop]

theorem acksFor_succ {k : SinkPlan} {n : Nat} (h : k.AcksFor (n + 1)) :
    k.look 0 = some .ack ∧ (k.after 1).AcksFor n :=
  ⟨h 0 (by omega), fun j hj => by rw [look_after]; exact h (1 + j) (by omega)⟩

/-- A sink that acknowledges acknowledges any number of tokens. -/
theorem allAck_acksFor (n : Nat) : SinkPlan.allAck.AcksFor n := fun j _ => by
  simp [SinkPlan.look, SinkPlan.allAck]

/-- Every plan either acknowledges the next `n` tokens or has a first token below `n` that it does not. -/
theorem acksFor_or (k : SinkPlan) (n : Nat) :
    k.AcksFor n ∨ ∃ j, j < n ∧ k.AcksFor j ∧ (k.look j = some .nak ∨ k.look j = none) := by
  induction n with
  | zero => exact .inl fun j hj => absurd hj (by omega)
  | succ n ih =>
    rcases ih with h | ⟨j, hj, h⟩
    · rcases hl : k.look n with _ | _ | _
      · exact .inr ⟨n, by omega, h, .inr hl⟩
      · refine .inl fun j hj => ?_
        rcases Nat.lt_succ_iff_lt_or_eq.mp hj with hj | rfl
        · exact h j hj
        · exact hl
      · exact .inr ⟨n, by omega, h, .inl hl⟩
    · exact .inr ⟨j, by omega, h⟩

@[simp] theorem acked_nil : acked [] = [] := rfl
@[simp] theorem acked_cons (t : Token) (ts : List Token) :
    acked (t :: ts) = { token := t, answer := .ack } :: acked ts := rfl

/-- Every token acknowledged: the commit, with all the tokens in `OUT`. -/
theorem transmit_acks {ts : List Token} {c : Commit} {s : State} (h : s.sink.AcksFor ts.length) :
    transmit ts c s = commit c { s with out := s.out ++ acked ts, sink := s.sink.after ts.length } := by
  induction ts generalizing s with
  | nil => simp [transmit]
  | cons t ts ih =>
    obtain ⟨h0, h1⟩ := acksFor_succ h
    rw [transmit, poll_eq, h0]
    simp only
    rw [ih h1]
    simp [Nat.add_comm]

/-- The first NAK: the error outcome, with the tokens up to it in `OUT`. -/
theorem transmit_nak {ts : List Token} {c : Commit} {s : State} {k : Nat} (hk : k < ts.length)
    (ha : s.sink.AcksFor k) (hn : s.sink.look k = some .nak) :
    transmit ts c s = raiseErr (nakError ts[k])
      { s with out := s.out ++ (acked (ts.take k) ++ [{ token := ts[k], answer := .nak }])
               sink := s.sink.after (k + 1) } := by
  induction ts generalizing s k with
  | nil => simp at hk
  | cons t ts ih =>
    rw [transmit, poll_eq]
    cases k with
    | zero => simp [hn]
    | succ k =>
      obtain ⟨h0, h1⟩ := acksFor_succ ha
      rw [h0]
      simp only
      rw [ih (k := k) (by simpa using hk) h1 (by rw [look_after]; simpa [Nat.add_comm] using hn)]
      simp [Nat.add_comm, Nat.add_left_comm]

/-- The first token without an answer: the command waits with that token and those after it. -/
theorem transmit_waits {ts : List Token} {c : Commit} {s : State} {k : Nat} (hk : k < ts.length)
    (ha : s.sink.AcksFor k) (hn : s.sink.look k = none) :
    transmit ts c s =
      { s with out := s.out ++ acked (ts.take k)
               sink := s.sink.after (k + 1)
               waiting := some { token := ts[k], later := ts.drop (k + 1), commit := c } } := by
  induction ts generalizing s k with
  | nil => simp at hk
  | cons t ts ih =>
    rw [transmit, poll_eq]
    cases k with
    | zero => simp [hn]
    | succ k =>
      obtain ⟨h0, h1⟩ := acksFor_succ ha
      rw [h0]
      simp only
      rw [ih (k := k) (by simpa using hk) h1 (by rw [look_after]; simpa [Nat.add_comm] using hn)]
      simp [Nat.add_comm, Nat.add_left_comm]

/-- Everything a transmission can do: it commits with all its tokens acknowledged, it raises the error of the token that
was NAKed, or it waits; what it has sent is a first part of its list. -/
theorem transmit_cases (ts : List Token) (c : Commit) (s : State) :
    ∃ k, transmit ts c s = commit c { s with out := s.out ++ acked ts, sink := k } ∨
      (∃ l u, l ++ [u] <+: ts ∧ transmit ts c s = raiseErr (nakError u)
        { s with out := s.out ++ (acked l ++ [{ token := u, answer := .nak }]), sink := k }) ∨
      (∃ l u us, ts = l ++ u :: us ∧ transmit ts c s =
        { s with out := s.out ++ acked l, sink := k,
                 waiting := some { token := u, later := us, commit := c } }) := by
  rcases acksFor_or s.sink ts.length with h | ⟨j, hj, ha, hn | hn⟩
  · exact ⟨_, .inl (transmit_acks h)⟩
  · refine ⟨_, .inr (.inl ⟨ts.take j, ts[j], ?_, transmit_nak hj ha hn⟩)⟩
    rw [List.take_concat_get' ts j hj]
    exact List.take_prefix _ _
  · refine ⟨_, .inr (.inr ⟨ts.take j, ts[j], ts.drop (j + 1), ?_, transmit_waits hj ha hn⟩)⟩
    rw [List.getElem_cons_drop hj, List.take_append_drop]

/-- What a transmission leaves alone, whatever the sink does. -/
theorem transmit_frame (ts : List Token) (c : Commit) (s : State) :
    (transmit ts c s).params = s.params ∧ (transmit ts c s).stage = s.stage ∧ (transmit ts c s).pw = s.pw ∧
    (transmit ts c s).fb = s.fb ∧ (transmit ts c s).host = s.host ∧ (transmit ts c s).replies = s.replies := by
  obtain ⟨k, h | ⟨l, u, -, h⟩ | ⟨l, u, us, -, h⟩⟩ := transmit_cases ts c s <;> simp [h]

/-- A transmission does not read `OUT`: it does the same after any history (R25). -/
theorem transmit_out (ts : List Token) (c : Commit) (s : State) (l : List Sent) :
    transmit ts c { s with out := l ++ s.out } =
      { transmit ts c s with out := l ++ (transmit ts c s).out } := by
  induction ts generalizing s with
  | nil => rfl
  | cons a ts ih =>
    simp only [transmit]
    rcases s.sink.poll with ⟨_ | _ | _, k⟩
    · rfl
    · simpa using ih { s with sink := k, out := s.out ++ [{ token := a, answer := .ack }] }
    · simp [raiseErr]

/-- A transmission reads neither GrayAccumulator nor PreviousFrame: it overwrites both when it commits, and leaves both
when it does not (R95). -/
theorem transmit_grids (ts : List Token) (c : Commit) (s : State) (g : Memory) (pf : Option Memory) :
    transmit ts c { s with ga := g, pf := pf } =
      if (transmit ts c s).waiting = none ∧ (transmit ts c s).err = 0 then transmit ts c s
      else { transmit ts c s with ga := g, pf := pf } := by
  induction ts generalizing s with
  | nil => rfl
  | cons a ts ih =>
    obtain ⟨o, k, hk⟩ : ∃ o k, s.sink.poll = (o, k) := ⟨_, _, rfl⟩
    simp only [transmit, hk]
    rcases o with _ | _ | _
    · rfl
    · exact ih { s with sink := k, out := s.out ++ [{ token := a, answer := .ack }] }
    · cases a <;> rfl

/-- A sink that never answers leaves a waiting command exactly where it is (R124). -/
theorem resume_silent {p : Pending} {s : State} (hw : s.waiting = some p) (hs : s.sink = { script := [], rest := none }) :
    resume p s = s := by
  obtain ⟨⟩ := s
  simp only at hw hs
  subst hw hs
  rfl

end Sys2Proof.Machine
end

