-- ==== Sys2Proof/Laws/Commands.lean ====
section
/-! SUPPORT. The tracker commands, said once: a full update transmits the whole frame, a partial update commits without
a token or transmits a rectangle, and everything a command of a legal block can do. -/

namespace Sys2Proof.Machine

theorem packInto_eq (w : Word) (s : State) : packInto w s = .next { s with pw := w, err := 0 } := rfl

theorem size_mod_spw {p : Params} (hp : p.wf) : p.size % spw p.updFmt = 0 :=
  mul_mod_spw hp.1.2.2 hp.2.2.2 p.updFmt

/-- `sendRegion` of samples given by their positions is the transmission of their tokens. -/
theorem sendRegion_range {kind : LoadKind} {r : Rect} {n : Nat} {mode : Byte} {c : Commit} {s : State}
    (h : n % spw s.params.updFmt = 0) (f : Nat → Byte) :
    sendRegion kind r ((List.range n).map f) mode c s =
      .next (transmit (sendTokens s.params.updFmt (loadToken kind r) n f r mode) c s) := by
  simp [sendRegion, packSeq_map_range h, transmission, sendTokens, Function.comp_def]

/-- A full update of a legal block transmits the whole frame (R84). -/
theorem fullUpdate_eq {s : State} (hp : s.params.wf) (mode : Byte) :
    fullUpdate mode s =
      .next (transmit (fullTokens s.params s.fb mode) { ga := fullGa mode s, pf := s.fb, noop := false } s) := by
  rw [fullUpdate, crop_fullRect, sendRegion_range (size_mod_spw hp)]
  rfl

/-- A partial update with no dirty box commits and sends nothing (R90). -/
theorem partialUpdate_none {mode : Byte} {pf : Memory} {s : State} (h : partialBox mode pf s = none) :
    partialUpdate mode pf s = .next (commit { ga := partialGa mode pf s, pf := s.fb, noop := true } s) := by
  simp [partialUpdate, h]

/-- The raw dirty box of a partial update is a bounding box of a grid. -/
theorem partialBox_bounds {mode : Byte} {pf : Memory} {s : State} {b : Box} (h : partialBox mode pf s = some b) :
    (b.minX < b.maxX ∧ b.maxX ≤ s.params.W.toNat) ∧ (b.minY < b.maxY ∧ b.maxY ≤ s.params.H.toNat) := by
  simp only [partialBox] at h
  split at h <;> · have := bbox_bounds h; omega

/-- A partial update with a dirty box transmits the rounded rectangle (R91). -/
theorem partialUpdate_some {mode : Byte} {pf : Memory} {s : State} {b : Box} (hp : s.params.wf)
    (h : partialBox mode pf s = some b) :
    partialUpdate mode pf s =
      .next (transmit (areaTokens s.params s.fb (rectOf (roundBox b)) mode)
        { ga := partialGa mode pf s, pf := s.fb, noop := false } s) := by
  obtain ⟨hx, hy⟩ := partialBox_bounds h
  obtain ⟨-, -, -, -, ⟨-, -, hw, hh⟩, -⟩ := rectOf_roundBox hp hx hy
  have hm := mul_mod_spw hw hh s.params.updFmt
  simp only [partialUpdate, h, partialSamples, areaTokens]
  by_cases hd : mode = Config.modeDu
  · have h1 : mode = 1 := hd
    rw [if_pos hd, crop_eq_map, List.map_map, sendRegion_range hm]
    simp only [if_pos h1, loadToken]
    rfl
  · have h1 : ¬ mode = 1 := hd
    rw [if_neg hd, crop_eq_map, sendRegion_range hm]
    simp only [if_neg h1, loadToken]

/-- The grid whose bounding box a partial update takes is non-zero exactly at the dirty samples (R88, R89). -/
theorem partialBox_eq_bbox (mode : Byte) (pf : Memory) (s : State) :
    ∃ M, partialBox mode pf s = bbox s.params M ∧
      ∀ x y, x < s.params.W.toNat → y < s.params.H.toNat →
        (M.at s.params.W.toNat x y ≠ 0 ↔ Dirty s pf mode x y) := by
  by_cases hd : mode = Config.modeDu
  · refine ⟨absDiffGrid s.params pf s.fb, by simp [partialBox, hd], fun x y hx hy => ?_⟩
    have h1 : mode = 1 := hd
    simp only [at_absDiffGrid hx hy, Ne, absDiff_eq_zero, Dirty, hx, hy, h1]
    tauto
  · refine ⟨satAddGrid s.params s.ga (absDiffGrid s.params pf s.fb), by simp [partialBox, hd], fun x y hx hy => ?_⟩
    have h1 : ¬ mode = 1 := hd
    simp only [at_satAddGrid hx hy, at_absDiffGrid hx hy, Ne, satAdd_eq_zero, absDiff_eq_zero, Dirty, hx, hy, h1,
      true_and, not_false_eq_true]
    tauto

theorem partialBox_none_iff {mode : Byte} {pf : Memory} {s : State} :
    partialBox mode pf s = none ↔ ∀ x y, ¬ Dirty s pf mode x y := by
  obtain ⟨M, hM, hd⟩ := partialBox_eq_bbox mode pf s
  rw [hM, bbox_eq_none]
  constructor
  · intro h x y hxy
    exact (hd x y hxy.1 hxy.2.1).mpr hxy (h x y hxy.1 hxy.2.1)
  · intro h x y hx hy
    by_contra hne
    exact h x y ((hd x y hx hy).mp hne)

theorem fullGa_ofFrame {s : State} (h : s.Inv) (mode : Byte) : (fullGa mode s).OfFrame s.params := by
  simp only [fullGa]
  split
  · split
    · exact satAddGrid_ofFrame _ _ _
    · exact h.ga
  · exact Memory.ofFrame_zero _

theorem partialGa_ofFrame (mode : Byte) (pf : Memory) (s : State) : (partialGa mode pf s).OfFrame s.params := by
  simp only [partialGa]
  split
  · exact satAddGrid_ofFrame _ _ _
  · exact Memory.ofFrame_zero _

theorem sendTokens_inFrame {p : Params} {fmt : PixelFormat} {load : Token} {n : Nat} {f : Nat → Byte} {r : Rect}
    {mode : Byte} (hl : load.InFrame p) (hr : r.InFrame p) :
    ∀ t ∈ sendTokens fmt load n f r mode, t.InFrame p := by
  intro t ht
  simp only [sendTokens, List.mem_append, List.mem_cons, List.not_mem_nil, or_false, List.mem_map] at ht
  rcases ht with ((rfl | rfl) | ⟨_, _, rfl⟩) | rfl | rfl <;> trivial

/-- A transmission begins with WAITRDY and has no other. -/
theorem sendTokens_waitRdy {fmt : PixelFormat} {load : Token} {n : Nat} {f : Nat → Byte} {r : Rect} {mode : Byte}
    (hl : load ≠ .waitRdy) : ∃ us, sendTokens fmt load n f r mode = .waitRdy :: us ∧ .waitRdy ∉ us := by
  refine ⟨_, rfl, ?_⟩
  simp [hl.symm]

theorem fullTokens_inFrame (p : Params) (F : Memory) (mode : Byte) : ∀ t ∈ fullTokens p F mode, t.InFrame p :=
  sendTokens_inFrame (by trivial) ⟨by simp, by simp⟩

/-- Everything a command of a legal block can do (R12, R84, R86, R92): a PACK command writes `PW`; a tracker command
transmits and commits, or, without a token, commits a no-op update. `F` is the FrameBuffer it works on. -/
theorem exec_cases {s : State} (hp : s.params.wf) (i : Instr) :
    ∃ t, exec i s = .next t ∧
      ((IsPack i ∧ ∃ w, t = { s with pw := w, err := 0 }) ∨
       (¬ IsPack i ∧ ∃ F c, (F = s.fb ∨ F = white s.params ∧ i = .clear) ∧ c.pf = F ∧
          (s.Inv → c.ga.OfFrame s.params) ∧
          ((c.noop = false ∧ ∃ ts us, (∀ x ∈ ts, x.InFrame s.params) ∧ ts = .waitRdy :: us ∧ .waitRdy ∉ us ∧
              t = transmit ts c { s with fb := F }) ∨
           (c.noop = true ∧ F = s.fb ∧ s.pfv = true ∧ t = commit c s)))) := by
  have fw : ∀ F mode, ∃ us, fullTokens s.params F mode = .waitRdy :: us ∧ .waitRdy ∉ us := fun F mode =>
    sendTokens_waitRdy (by simp)
  have full : ∀ mode, ∃ t, fullUpdate mode s = .next t ∧ ∃ F c, (F = s.fb ∨ F = white s.params ∧ i = .clear) ∧
      c.pf = F ∧ (s.Inv → c.ga.OfFrame s.params) ∧
      ((c.noop = false ∧ ∃ ts us, (∀ x ∈ ts, x.InFrame s.params) ∧ ts = .waitRdy :: us ∧ .waitRdy ∉ us ∧
          t = transmit ts c { s with fb := F }) ∨
       (c.noop = true ∧ F = s.fb ∧ s.pfv = true ∧ t = commit c s)) := fun mode =>
    ⟨_, fullUpdate_eq hp mode, s.fb, _, .inl rfl, rfl, fun h => fullGa_ofFrame h mode,
      .inl ⟨rfl, _, _, fullTokens_inFrame _ _ _, (fw _ mode).choose_spec.1, (fw _ mode).choose_spec.2, rfl⟩⟩
  cases i with
  | pack2 => exact ⟨_, rfl, .inl ⟨by simp [IsPack], _, rfl⟩⟩
  | pack3 => exact ⟨_, rfl, .inl ⟨by simp [IsPack], _, rfl⟩⟩
  | pack4 => exact ⟨_, rfl, .inl ⟨by simp [IsPack], _, rfl⟩⟩
  | pack8 => exact ⟨_, rfl, .inl ⟨by simp [IsPack], _, rfl⟩⟩
  | wfull mode =>
    obtain ⟨t, ht, h⟩ := full mode
    exact ⟨t, ht, .inr ⟨by simp [IsPack], h⟩⟩
  | wpart mode =>
    rcases Option.eq_none_or_eq_some s.pf with hpf | ⟨pf, hpf⟩
    · obtain ⟨t, ht, h⟩ := full mode
      exact ⟨t, by simpa [exec, execWPart, hpf] using ht, .inr ⟨by simp [IsPack], h⟩⟩
    · rcases hb : partialBox mode pf s with _ | b
      · exact ⟨_, by simpa [exec, execWPart, hpf] using partialUpdate_none hb,
          .inr ⟨by simp [IsPack], s.fb, _, .inl rfl, rfl, fun _ => partialGa_ofFrame mode pf s,
            .inr ⟨rfl, rfl, by simp [State.pfv, hpf], rfl⟩⟩⟩
      · have hx := partialBox_bounds hb
        obtain ⟨-, -, -, -, -, hf, -⟩ := rectOf_roundBox hp hx.1 hx.2
        obtain ⟨us, hus, hnot⟩ : ∃ us, areaTokens s.params s.fb (rectOf (roundBox b)) mode = .waitRdy :: us ∧
            Token.waitRdy ∉ us := sendTokens_waitRdy (by simp)
        have he : exec (.wpart mode) s = partialUpdate mode pf s := by simp only [exec, execWPart, hpf]
        exact ⟨_, he.trans (partialUpdate_some hp hb),
          .inr ⟨by simp [IsPack], s.fb, _, .inl rfl, rfl, fun _ => partialGa_ofFrame mode pf s,
            .inl ⟨rfl, areaTokens s.params s.fb (rectOf (roundBox b)) mode, us,
              sendTokens_inFrame (load := .loadArea _) hf hf, hus, hnot, rfl⟩⟩⟩
  | clear =>
    exact ⟨_, fullUpdate_eq (s := { s with fb := white s.params }) hp Config.modeInit,
      .inr ⟨by simp [IsPack], white s.params, _, .inr ⟨rfl, rfl⟩, rfl,
        fun _ => Memory.ofFrame_zero _,
        .inl ⟨rfl, _, _, fullTokens_inFrame _ _ _, (fw _ _).choose_spec.1, (fw _ _).choose_spec.2, rfl⟩⟩⟩

end Sys2Proof.Machine
end

