-- ==== Sys2Proof/Laws/Step.lean ====
section
/-! SUPPORT. What a step can do, said once. -/

namespace Sys2Proof.Machine

/-- The seven things a step that answers a next state can have done, besides a reset: see `step_cases`. -/
inductive Turn (s t : State) : Prop where
  /-- The block waited for the host (R13). -/
  | idle (hw : s.waiting = none) (hh : s.host = []) (ht : t = s)
  /-- A running command looked at the sink again (R124). -/
  | wait (q : Pending) (hw : s.waiting = some q) (ht : t = completeIssue (resume q s))
  /-- A transaction that changes no state of the block: a read, or a bus error (R101, R103, R106). -/
  | answer (i : HostInput) (rest : List HostInput) (r : Reply) (hw : s.waiting = none) (hh : s.host = i :: rest)
      (hd : r ≠ .done) (ht : t = reply r { s with host := rest })
  /-- A write to a staging register (R102). -/
  | stage (a : Addr) (v : Word) (j : Fin 8) (rest : List HostInput) (hw : s.waiting = none)
      (hh : s.host = .write .reg a 16 v :: rest) (ha : regAt a = some (.stage j))
      (ht : t = reply .done { s with host := rest, stage := s.stage.set j (v.setWidth 8) })
  /-- A write to FrameBuffer (R104). -/
  | frame (a : Addr) (v : Word) (rest : List HostInput) (hw : s.waiting = none)
      (hh : s.host = .write .fbs a 8 v :: rest) (ha : a.toNat < s.params.size)
      (ht : t = reply .done { s with host := rest, fb := s.fb.write a.toNat (v.setWidth 8) })
  /-- A command (R105). -/
  | command (w : Word) (rest : List HostInput) (i : Instr) (u : State) (hw : s.waiting = none)
      (hh : s.host = .write .reg 0 16 w :: rest) (hd : decode w = .command i)
      (he : exec i { s with host := rest } = .next u) (ht : t = completeIssue u)
  /-- A reserved word (R111). -/
  | illegal (w : Word) (rest : List HostInput) (e : DecodeError) (hw : s.waiting = none)
      (hh : s.host = .write .reg 0 16 w :: rest) (hd : decode w = .reserved e)
      (ht : t = reply .done (raiseErr .illegalCmd { s with host := rest }))

theorem turn_of_read {s t : State} {sp : Space} {a : Addr} {width : Nat} {rest : List HostInput}
    (hw : s.waiting = none) (hh : s.host = .read sp a width :: rest)
    (h : t = hostRead sp a width { s with host := rest }) : Turn s t := by
  have ans : ∀ r, r ≠ Reply.done → t = reply r { s with host := rest } → Turn s t :=
    fun r hd ht => .answer _ rest r hw hh hd ht
  subst h
  cases sp with
  | reg =>
    by_cases hwd : width = 16
    · simp only [hostRead, hwd, ↓reduceIte, regRead] at ans ⊢
      split
      · rename_i hv
        simp only [hv] at ans
        exact ans _ (by simp) rfl
      · rename_i hv
        simp only [hv] at ans
        exact ans _ (by simp) rfl
    · simp only [hostRead, hwd, ↓reduceIte] at ans ⊢
      exact ans _ (by simp) rfl
  | fbs =>
    by_cases hwd : width = 8
    · simp only [hostRead, hwd, ↓reduceIte, fbRead] at ans ⊢
      split
      · rename_i hv
        simp only [hv, ↓reduceIte] at ans
        exact ans _ (by simp) rfl
      · rename_i hv
        simp only [hv, ↓reduceIte] at ans
        exact ans _ (by simp) rfl
    · simp only [hostRead, hwd, ↓reduceIte] at ans ⊢
      exact ans _ (by simp) rfl

theorem turn_of_write {s t : State} {sp : Space} {a : Addr} {width : Nat} {v : Word} {rest : List HostInput}
    (hw : s.waiting = none) (hh : s.host = .write sp a width v :: rest)
    (h : hostWrite sp a width v { s with host := rest } = .next t) : Turn s t := by
  cases sp with
  | reg =>
    simp only [hostWrite] at h
    split at h
    · rename_i hwd
      subst hwd
      split at h
      · rename_i ha
        subst ha
        simp only [issue] at h
        split at h
        · rename_i i hd
          split at h
          · rename_i u he
            cases h
            exact .command v rest i u hw hh hd he rfl
          · cases h
          · cases h
        · rename_i e hd
          cases h
          exact .illegal v rest e hw hh hd (completeIssue_of_ended rfl)
      · cases h
        simp only [regWrite]
        split
        · rename_i j hj
          exact .stage a v j rest hw hh hj rfl
        · exact .answer _ rest .busError hw hh (by simp) rfl
    · cases h
      exact .answer _ rest .busError hw hh (by simp) rfl
  | fbs =>
    simp only [hostWrite] at h
    split at h
    · rename_i hwd
      subst hwd
      cases h
      simp only [fbWrite]
      split
      · rename_i ha
        exact .frame a v rest hw hh ha rfl
      · exact .answer _ rest .busError hw hh (by simp) rfl
    · cases h
      exact .answer _ rest .busError hw hh (by simp) rfl

theorem resetInput_next {p : Params} {l : List Byte} {s t : State} (h : resetInput p l s = .next t) :
    p.wf ∧ t = resetBlock p l s := by
  simp only [resetInput] at h
  split at h
  · rename_i hp
    cases h
    exact ⟨hp, rfl⟩
  · cases h

/-- Everything a step that answers a next state has done: a reset (R125), or one of the turns above. -/
theorem step_cases {s t : State} (h : step s = .next t) :
    s.params.wf ∧
      ((∃ p l rest, s.host = .reset p l :: rest ∧ p.wf ∧ t = resetBlock p l { s with host := rest }) ∨
        ((∀ p l rest, s.host ≠ .reset p l :: rest) ∧ Turn s t)) := by
  simp only [step, stepBlock] at h
  split at h
  · rename_i hp
    refine ⟨hp, ?_⟩
    split at h
    · rename_i q hq
      simp only [waitTurn] at h
      split at h
      · rename_i p l rest hh
        obtain ⟨hp, rfl⟩ := resetInput_next h
        exact .inl ⟨p, l, rest, hh, hp, rfl⟩
      · rename_i hh
        cases h
        exact .inr ⟨fun p l rest => hh p l rest, .wait q hq rfl⟩
    · rename_i hw
      simp only [hostTurn] at h
      split at h
      · rename_i hh
        cases h
        exact .inr ⟨by simp [hh], .idle hw hh rfl⟩
      · rename_i hh
        cases h
        exact .inr ⟨by simp [hh], turn_of_read hw hh rfl⟩
      · rename_i hh
        exact .inr ⟨by simp [hh], turn_of_write hw hh h⟩
      · rename_i p l rest hh
        obtain ⟨hp, rfl⟩ := resetInput_next h
        exact .inl ⟨p, l, rest, hh, hp, rfl⟩
  · cases h

/-- The step of a waiting block with no reset at hand. -/
theorem step_waiting {s : State} {q : Pending} (hp : s.params.wf) (hw : s.waiting = some q)
    (hh : ∀ p l rest, s.host ≠ .reset p l :: rest) : step s = .next (completeIssue (resume q s)) := by
  simp only [step, stepBlock, if_pos hp, hw, waitTurn]

/-- The step of a block with no command running. -/
theorem step_ready {s : State} (hp : s.params.wf) (hw : s.waiting = none) : step s = hostTurn s := by
  simp only [step, stepBlock, if_pos hp, hw]

end Sys2Proof.Machine
end

