-- ==== Sys2Proof/Certificates/Slice0/Obligations.lean ====
section
/-! DEFINITION. The statements about the block. Each docstring names the rules of spec/ it formalises. -/

open Sys2Proof Sys2Proof.Machine

/-! ## Encoding -/

/-- R50 to R54: the decoder reads back every command from its word, and no two words are one command. -/
def Obligations.CommandWordsAgree : Prop :=
  (∀ i : Instr, i.wf = true → decode (encode i) = .command i) ∧
  (∀ (w : Word) (i : Instr), decode w = .command i → encode i = w)

/-- R51, R52, R53, R54, R57: words written out from the tables of 30_encoding.md and V13. -/
def Obligations.WrittenWordsDecode : Prop :=
  decode 0b0001000000000000 = .command .pack2 ∧ decode 0b0001000000000001 = .command .pack3 ∧
  decode 0b0001000000000010 = .command .pack4 ∧ decode 0b0001000000000011 = .command .pack8 ∧
  decode 0b0010000000000001 = .command (.wfull 1) ∧ decode 0b0010000011111111 = .command (.wfull 255) ∧
  decode 0b0010000100000010 = .command (.wpart 2) ∧ decode 0b0010001000000000 = .command .clear ∧
  decode 0x1004 = .reserved .packArg ∧ decode 0x10FF = .reserved .packArg ∧ decode 0x2201 = .reserved .clearArg ∧
  decode 0x0000 = .reserved .reservedOp ∧ decode 0x2300 = .reserved .reservedOp ∧
  decode 0xFFFF = .reserved .reservedOp

/-- R61: the word each mnemonic stands for. -/
def Obligations.AssemblerWords : Prop :=
  encode .pack2 = 0x1000 ∧ encode .pack3 = 0x1001 ∧ encode .pack4 = 0x1002 ∧ encode .pack8 = 0x1003 ∧
  (∀ mode : Byte, (encode (.wfull mode)).toNat = 0x2000 + mode.toNat) ∧
  (∀ mode : Byte, (encode (.wpart mode)).toNat = 0x2100 + mode.toNat) ∧
  encode .clear = 0x2200

/-- R57, R111: which words are reserved, how many are legal, and what writing a reserved word does: `ERR` becomes 1 and
the write completes; nothing else changes. -/
def Obligations.ReservedWords : Prop :=
  (∀ w : Word, (∃ e, decode w = .reserved e) ↔
    (w.toNat / 256 ≠ 0x10 ∧ w.toNat / 256 ≠ 0x20 ∧ w.toNat / 256 ≠ 0x21 ∧ w.toNat / 256 ≠ 0x22) ∨
    (w.toNat / 256 = 0x10 ∧ w.toNat % 256 / 4 ≠ 0) ∨ (w.toNat / 256 = 0x22 ∧ w.toNat % 256 ≠ 0)) ∧
  (∃ l : List Word, l.Nodup ∧ l.length = 4 + 256 + 256 + 1 ∧ ∀ w, w ∈ l ↔ ∃ i, decode w = .command i) ∧
  (∀ (s : State) (w : Word) (e : DecodeError) (rest : List HostInput), s.params.wf → s.waiting = none →
    s.host = .write .reg 0x00 16 w :: rest → decode w = .reserved e →
    step s = .next { s with host := rest, err := 1, replies := s.replies ++ [.done] })

/-! ## The host's transactions -/

/-- R101: what each register reads as; a read changes nothing. `replies` keeps what the host gets (log 7). The form of the
bus error is the model's choice (log 6): a next state with the reply `busError`, where R106 says `refuse`. -/
def Obligations.RegisterReads : Prop :=
  ∀ (s : State) (a : Addr) (rest : List HostInput), s.params.wf → s.waiting = none →
    s.host = .read .reg a 16 :: rest →
    step s = .next { s with host := rest, replies := s.replies ++ [
      if a = 0x01 then
        .word (BitVec.ofNat 16 (16 * s.err.toNat + 2 * s.noop.toNat + s.pf.isSome.toNat))
      else if a = 0x02 then .word s.params.W
      else if a = 0x03 then .word s.params.H
      else if a = 0x04 then
        .word (match s.params.updFmt with | .bpp2 => 0 | .bpp3 => 1 | .bpp4 => 2 | .bpp8 => 3)
      else if a = 0x05 then .word s.pw
      else if h : 0x08 ≤ a.toNat ∧ a.toNat < 0x10 then .word ((s.stage[a.toNat - 0x08]'(by omega)).setWidth 16)
      else .busError] }

/-- R102: a write to a staging register stores the low byte; every other register write but a command is a bus error. The
form of the bus error is the model's choice (log 6): a next state with the reply `busError`, where R106 says `refuse`. -/
def Obligations.RegisterWrites : Prop :=
  ∀ (s : State) (a : Addr) (v : Word) (rest : List HostInput), s.params.wf → s.waiting = none →
    s.host = .write .reg a 16 v :: rest → a ≠ 0x00 →
    step s = .next (if h : 0x08 ≤ a.toNat ∧ a.toNat < 0x10 then
        { s with host := rest, replies := s.replies ++ [.done],
                 stage := s.stage.set (a.toNat - 0x08) (v.extractLsb' 0 8) (by omega) }
      else { s with host := rest, replies := s.replies ++ [.busError] })

/-- R103: a read of FrameBuffer gives the sample `FB[a mod W, a div W]`, or past the end a bus error; it changes nothing.
The form of the bus error is the model's choice (log 6): a next state with the reply `busError`, where R106 says
`refuse`. -/
def Obligations.FrameBufferReads : Prop :=
  ∀ (s : State) (a : Addr) (rest : List HostInput), s.params.wf → s.waiting = none →
    s.host = .read .fbs a 8 :: rest →
    step s = .next { s with host := rest, replies := s.replies ++ [
      if s.params.W.toNat * s.params.H.toNat ≤ a.toNat then .busError
      else .sample (s.fb.at s.params.W.toNat (a.toNat % s.params.W.toNat) (a.toNat / s.params.W.toNat))] }

/-- R104: a write to FrameBuffer stores one sample and touches nothing else; past the end it is a bus error (R37). Two
things are the model's choice: the form of the bus error, a next state with the reply `busError` where R106 says `refuse`
(log 6), and that a write brings 16 bits of which `FBS` takes the low 8 (log 13). -/
def Obligations.FrameBufferWrites : Prop :=
  ∀ (s : State) (a : Addr) (v : Word) (rest : List HostInput), s.params.wf → s.fb.wf → s.waiting = none →
    s.host = .write .fbs a 8 v :: rest →
    if s.params.W.toNat * s.params.H.toNat ≤ a.toNat then
      step s = .next { s with host := rest, replies := s.replies ++ [.busError] }
    else
      ∃ m : Memory, step s = .next { s with host := rest, fb := m, replies := s.replies ++ [.done] } ∧ m.wf ∧
        m.at s.params.W.toNat (a.toNat % s.params.W.toNat) (a.toNat / s.params.W.toNat) = v.extractLsb' 0 8 ∧
        ∀ b, b ≠ a.toNat → m.read b = s.fb.read b

/-- R36: an access of another width than 16 bits to `REG` or 8 bits to `FBS` is a bus error and changes nothing. The
form of the response is the model's choice (log 6): a next state with the reply `busError`, where R106 says `refuse`. -/
def Obligations.WrongWidthIsBusError : Prop :=
  ∀ (s : State) (sp : Space) (a : Addr) (width : Nat) (v : Word) (rest : List HostInput), s.params.wf →
    s.waiting = none → width ≠ (match sp with | .reg => 16 | .fbs => 8) →
    (s.host = .read sp a width :: rest ∨ s.host = .write sp a width v :: rest) →
    step s = .next { s with host := rest, replies := s.replies ++ [.busError] }

/-- R106: whatever the state and the input, a step that answers the host with a bus error has changed no state at all:
no register, no sample, no flag (ERR included), no token. That the bus error is a next state
with the reply `busError`, where R106 says `refuse`, is the model's choice (log 6). -/
def Obligations.BusErrorChangesNothing : Prop :=
  ∀ s t : State, step s = .next t → t.replies = s.replies ++ [.busError] →
    ∃ i rest, s.host = i :: rest ∧ t = { s with host := rest, replies := s.replies ++ [.busError] }

/-- R105, R107: a write of a legal word to CMD runs the command; the write completes unless the command waits, which is a
state of its own by the model's choice (log 4). The same
of the step after `withFetchWord`, which is the model's way to place a command (log 5). -/
def Obligations.StepRunsCommand : Prop :=
  (∀ (s : State) (w : Word) (i : Instr) (rest : List HostInput), s.params.wf → s.waiting = none →
    s.host = .write .reg 0x00 16 w :: rest → decode w = .command i →
    step s = match exec i { s with host := rest } with
      | .next t => .next (if t.waiting = none then { t with replies := t.replies ++ [.done] } else t)
      | .fault f => .fault f
      | .refused r => .refused r) ∧
  (∀ (s : State) (i : Instr), s.params.wf →
    step (s.withFetchWord 16 (encode i).toNat) = match exec i { s with waiting := none } with
      | .next t => .next (if t.waiting = none then { t with replies := t.replies ++ [.done] } else t)
      | .fault f => .fault f
      | .refused r => .refused r)

/-- R13, R137: with no command running and no transaction to come, the block waits and nothing changes. That this wait
is a step is the model's choice (log 7). -/
def Obligations.IdleBlockWaits : Prop :=
  ∀ s : State, s.params.wf → s.waiting = none → s.host = [] → step s = .next s

/-! ## Reset, the invariant, and what stops a step -/

/-- R126, R129: the reset input puts every piece of the block's state at its reset value, whether or not a command is
running, and samples the parameters. FrameBuffer holds whatever the launch finds there (R20). What is left of the two
inputs and the host's record stays, which is the model's choice (log 8). -/
def Obligations.ResetInputResets : Prop :=
  ∀ (s : State) (p : Params) (l : List Byte) (rest : List HostInput), s.params.wf → p.wf →
    s.host = .reset p l :: rest →
    ∃ t, step s = .next t ∧ t.params = p ∧ (∀ i : Fin 8, t.stage[i] = 0x00) ∧ t.pw = 0x0000 ∧ t.pf = none ∧
      t.noop = false ∧ t.err = 0 ∧ (∀ a, t.ga.read a = 0x00) ∧ t.out = [] ∧ t.waiting = none ∧
      (∀ a (h : a < l.length), a < p.W.toNat * p.H.toNat → t.fb.read a = l[a]) ∧
      t.host = rest ∧ t.sink = s.sink ∧ t.replies = s.replies

/-- The invariant holds after reset, for every legal choice of parameters and any contents of FrameBuffer; and of
`State.reset`, whose parameters and contents are the model's choice (log 1, log 2). -/
def Obligations.ResetMeetsInvariant : Prop :=
  (∀ (p : Params) (m : Memory), p.wf → m.OfFrame p → (State.resetOf p m).Inv) ∧ State.reset.Inv

/-- R4, R23, R60, R95, R107, R120: every step keeps the invariant, from every state that meets it, whatever the host and
the sink do. The waiting command it speaks of is the model's form of R107 and R124 (log 4). -/
def Obligations.StepKeepsInvariant : Prop :=
  ∀ s t : State, s.Inv → step s = .next t → t.Inv

/-- R4, U13: a block whose parameters are not legal is refused, and so is a reset that would sample such parameters.
That the refusal is one of the step is the model's form (log 10). -/
def Obligations.IllegalParametersRefused : Prop :=
  ∀ p : Params,
    ¬ (0 < p.W.toNat ∧ p.W.toNat ≤ 65532 ∧ 0 < p.H.toNat ∧ p.H.toNat ≤ 65532 ∧ p.W.toNat % 4 = 0 ∧ p.H.toNat % 4 = 0) →
    (∀ s : State, s.params = p → step s = .refused .illFormedParams) ∧
    (∀ (s : State) (l : List Byte) (rest : List HostInput), s.params.wf → s.host = .reset p l :: rest →
      step s = .refused .illFormedParams)

/-- Every command of a legal block answers a next state; no step faults; a step is refused only for illegal parameters, as
R4 asks. That nothing else is refused rests on two choices of the model: a bus error is a next state with the reply
`busError`, where R106 says `refuse` (log 6), and a command whose sink does not answer goes to a next state that waits
(log 4). -/
def Obligations.NothingElseStops : Prop :=
  (∀ (i : Instr) (s : State), s.params.wf → ∃ t, exec i s = .next t) ∧
  (∀ (s : State) (f : Fault), step s ≠ .fault f) ∧
  (∀ (s : State) (r : Refusal), step s = .refused r → r = .illFormedParams ∧
    (¬ s.params.wf ∨ ∃ p l rest, s.host = .reset p l :: rest ∧ ¬ p.wf))

/-- R124: with a sink that never answers, no step lets a waiting command pass. The silent sink is a plan of looks that
find no answer, the model's form of it (log 4). -/
def Obligations.SilentSinkHangs : Prop :=
  ∀ (s : State) (q : Pending), s.params.wf → s.waiting = some q → (∀ n, s.sink.look n = none) →
    s.NoReset → ∃ t, step s = .next t ∧ t = { s with sink := t.sink } ∧ ∀ n, t.sink.look n = none

/-- R107, R124: a waiting command goes on from the token it waits for, in the three ways of a transmission; the host's
write completes when it has ended, and until then no transaction of the host is taken. The wait as a state of its own
is the model's form (log 4). -/
def Obligations.WaitingCommandGoesOn : Prop :=
  ∀ (s : State) (q : Pending), s.params.wf → s.waiting = some q → s.NoReset →
    ∃ t, Transmits s (q.token :: q.later) q.commit (.next t) ∧
      step s = .next (if t.waiting = none then { t with replies := t.replies ++ [.done] } else t)

/-! ## The codec -/

/-- R65, R66, R67, R68 (and R58): the packed words bit by bit. -/
def Obligations.PackFunctionsInBits : Prop :=
  (∀ b0 b1 : Byte, pack8 b0 b1 = b1 ++ b0) ∧
  (∀ b0 b1 b2 b3 : Byte, pack4 b0 b1 b2 b3 =
    b3.extractLsb' 4 4 ++ b2.extractLsb' 4 4 ++ b1.extractLsb' 4 4 ++ b0.extractLsb' 4 4) ∧
  (∀ b0 b1 b2 b3 : Byte, pack3 b0 b1 b2 b3 =
    b3.extractLsb' 4 4 ++ b2.extractLsb' 4 4 ++ b1.extractLsb' 4 4 ++ b0.extractLsb' 4 4) ∧
  (∀ b0 b1 b2 b3 : Byte, pack3 b0 b1 b2 b3 = pack4 b0 b1 b2 b3) ∧
  (∀ b0 b1 b2 b3 b4 b5 b6 b7 : Byte, pack2 b0 b1 b2 b3 b4 b5 b6 b7 =
    b7.extractLsb' 6 2 ++ b6.extractLsb' 6 2 ++ b5.extractLsb' 6 2 ++ b4.extractLsb' 6 2 ++
    b3.extractLsb' 6 2 ++ b2.extractLsb' 6 2 ++ b1.extractLsb' 6 2 ++ b0.extractLsb' 6 2)

/-- R70: lane `i` of a packed word is the top `F` bits of sample `i`, and the decoded value falls short of the sample by
exactly its low `8 - F` bits. -/
def Obligations.LaneLaw : Prop :=
  (laneBits .bpp8 = 8 ∧ laneBits .bpp4 = 4 ∧ laneBits .bpp3 = 4 ∧ laneBits .bpp2 = 2) ∧
  (∀ (fmt : PixelFormat) (w : Word) (i : Nat), i < spw fmt → (unlane fmt w i).toNat =
    (w.extractLsb' (laneBits fmt * i) (laneBits fmt)).toNat * 2 ^ (8 - laneBits fmt)) ∧
  ∀ (fmt : PixelFormat) (g : Nat → Byte) (i : Nat), i < spw fmt →
    ((packWord fmt g).extractLsb' (laneBits fmt * i) (laneBits fmt)).toNat = (g i).toNat / 2 ^ (8 - laneBits fmt) ∧
    (g i).toNat = (unlane fmt (packWord fmt g) i).toNat + (g i).toNat % 2 ^ (8 - laneBits fmt)

/-- R69: the function of each format, and groups cut from the flattened sequence; no value for a short last group. -/
def Obligations.PackSeqCutsGroups : Prop :=
  (∀ g : Nat → Byte, packWord .bpp8 g = pack8 (g 0) (g 1) ∧ packWord .bpp4 g = pack4 (g 0) (g 1) (g 2) (g 3) ∧
    packWord .bpp3 g = pack3 (g 0) (g 1) (g 2) (g 3) ∧
    packWord .bpp2 g = pack2 (g 0) (g 1) (g 2) (g 3) (g 4) (g 5) (g 6) (g 7)) ∧
  (∀ (fmt : PixelFormat) (l : List Byte), l.length % spw fmt = 0 →
    ∃ ws, packSeq fmt l = some ws ∧ ws.length = l.length / spw fmt ∧
      ∀ k (h : k < ws.length), ws[k] = packWord fmt fun i => (l.drop (k * spw fmt)).getD i 0) ∧
  (∀ (fmt : PixelFormat) (l : List Byte), l.length % spw fmt ≠ 0 → packSeq fmt l = none)

/-- R71, R72, R73, R74: the word of each PACK command, what it does, in every state, and that it does nothing else. -/
def Obligations.PackCommandResults : Prop :=
  (decode 0x1003 = .command .pack8 ∧ decode 0x1002 = .command .pack4 ∧ decode 0x1001 = .command .pack3 ∧
    decode 0x1000 = .command .pack2) ∧
  ∀ s : State,
    exec .pack8 s = .next { s with pw := s.stage[1] ++ s.stage[0], err := 0 } ∧
    exec .pack4 s = .next { s with
      pw := s.stage[3].extractLsb' 4 4 ++ s.stage[2].extractLsb' 4 4 ++ s.stage[1].extractLsb' 4 4 ++
        s.stage[0].extractLsb' 4 4
      err := 0 } ∧
    exec .pack3 s = .next { s with
      pw := s.stage[3].extractLsb' 4 4 ++ s.stage[2].extractLsb' 4 4 ++ s.stage[1].extractLsb' 4 4 ++
        s.stage[0].extractLsb' 4 4
      err := 0 } ∧
    exec .pack2 s = .next { s with
      pw := s.stage[7].extractLsb' 6 2 ++ s.stage[6].extractLsb' 6 2 ++ s.stage[5].extractLsb' 6 2 ++
        s.stage[4].extractLsb' 6 2 ++ s.stage[3].extractLsb' 6 2 ++ s.stage[2].extractLsb' 6 2 ++
        s.stage[1].extractLsb' 6 2 ++ s.stage[0].extractLsb' 6 2
      err := 0 }

/-! ## The region functions -/

/-- R75: each cell is the absolute difference over the integers; zero exactly for equal samples; symmetric. -/
def Obligations.AbsDiffOverIntegers : Prop :=
  ∀ (p : Params) (A B : Memory) (x y : Nat), x < p.W.toNat → y < p.H.toNat →
    (((absDiffGrid p A B).at p.W.toNat x y).toNat : Int) =
      |((A.at p.W.toNat x y).toNat : Int) - ((B.at p.W.toNat x y).toNat : Int)| ∧
    ((absDiffGrid p A B).at p.W.toNat x y = 0 ↔ A.at p.W.toNat x y = B.at p.W.toNat x y) ∧
    absDiffGrid p A B = absDiffGrid p B A

/-- R76: each cell is the sum over the integers capped at 255; never below the first grid; zero exactly for two zeros. -/
def Obligations.SatAddCaps : Prop :=
  ∀ (p : Params) (A B : Memory) (x y : Nat), x < p.W.toNat → y < p.H.toNat →
    ((satAddGrid p A B).at p.W.toNat x y).toNat =
      min 255 ((A.at p.W.toNat x y).toNat + (B.at p.W.toNat x y).toNat) ∧
    (A.at p.W.toNat x y).toNat ≤ ((satAddGrid p A B).at p.W.toNat x y).toNat ∧
    ((satAddGrid p A B).at p.W.toNat x y = 0 ↔ A.at p.W.toNat x y = 0 ∧ B.at p.W.toNat x y = 0)

/-- R77: no box exactly when every cell is 0; else the four bounds are the least and (exclusive) greatest coordinates of
non-zero cells. -/
def Obligations.BoundingBoxIsExact : Prop :=
  ∀ (p : Params) (M : Memory),
    (bbox p M = none ↔ ∀ x y, x < p.W.toNat → y < p.H.toNat → M.at p.W.toNat x y = 0) ∧
    ∀ b, bbox p M = some b →
      IsLeast { x | x < p.W.toNat ∧ ∃ y, y < p.H.toNat ∧ M.at p.W.toNat x y ≠ 0 } b.minX ∧
      (∃ x1, b.maxX = 1 + x1 ∧
        IsGreatest { x | x < p.W.toNat ∧ ∃ y, y < p.H.toNat ∧ M.at p.W.toNat x y ≠ 0 } x1) ∧
      IsLeast { y | y < p.H.toNat ∧ ∃ x, x < p.W.toNat ∧ M.at p.W.toNat x y ≠ 0 } b.minY ∧
      (∃ y1, b.maxY = 1 + y1 ∧
        IsGreatest { y | y < p.H.toNat ∧ ∃ x, x < p.W.toNat ∧ M.at p.W.toNat x y ≠ 0 } y1) ∧
      b.minX < b.maxX ∧ b.maxX ≤ p.W.toNat ∧ b.minY < b.maxY ∧ b.maxY ≤ p.H.toNat

/-- R78: the rounded box has bounds that are multiples of 4, contains the raw box, is contained in every other such box,
and does not leave a legal frame. -/
def Obligations.RoundedBoxIsSmallest : Prop :=
  (∀ b : Box,
    ((roundBox b).minX % 4 = 0 ∧ (roundBox b).minY % 4 = 0 ∧ (roundBox b).maxX % 4 = 0 ∧ (roundBox b).maxY % 4 = 0) ∧
    ((roundBox b).minX ≤ b.minX ∧ (roundBox b).minY ≤ b.minY ∧ b.maxX ≤ (roundBox b).maxX ∧
      b.maxY ≤ (roundBox b).maxY) ∧
    ∀ c : Box, c.minX % 4 = 0 → c.minY % 4 = 0 → c.maxX % 4 = 0 → c.maxY % 4 = 0 →
      c.minX ≤ b.minX → c.minY ≤ b.minY → b.maxX ≤ c.maxX → b.maxY ≤ c.maxY →
      c.minX ≤ (roundBox b).minX ∧ c.minY ≤ (roundBox b).minY ∧ (roundBox b).maxX ≤ c.maxX ∧
        (roundBox b).maxY ≤ c.maxY) ∧
  (∀ (p : Params) (b : Box), p.wf → b.maxX ≤ p.W.toNat → b.maxY ≤ p.H.toNat →
    (roundBox b).maxX ≤ p.W.toNat ∧ (roundBox b).maxY ≤ p.H.toNat)

/-- R79: the rectangle of a box, and of a rounded box of a legal frame: its numbers, nothing lost in 16 bits. -/
def Obligations.RectOfRoundedBox : Prop :=
  (∀ b : Box, b.minX ≤ b.maxX → b.minY ≤ b.maxY → b.maxX < 65536 → b.maxY < 65536 →
    (rectOf b).x.toNat = b.minX ∧ (rectOf b).y.toNat = b.minY ∧
    (rectOf b).w.toNat = b.maxX - b.minX ∧ (rectOf b).h.toNat = b.maxY - b.minY) ∧
  (∀ (p : Params) (b : Box), p.wf → b.minX < b.maxX → b.maxX ≤ p.W.toNat → b.minY < b.maxY → b.maxY ≤ p.H.toNat →
    (rectOf (roundBox b)).x.toNat = (roundBox b).minX ∧ (rectOf (roundBox b)).y.toNat = (roundBox b).minY ∧
    (rectOf (roundBox b)).w.toNat = (roundBox b).maxX - (roundBox b).minX ∧
    (rectOf (roundBox b)).h.toNat = (roundBox b).maxY - (roundBox b).minY ∧
    (rectOf (roundBox b)).Aligned ∧ 4 ≤ (rectOf (roundBox b)).w.toNat ∧ 4 ≤ (rectOf (roundBox b)).h.toNat ∧
    (rectOf (roundBox b)).x.toNat + (rectOf (roundBox b)).w.toNat ≤ p.W.toNat ∧
    (rectOf (roundBox b)).y.toNat + (rectOf (roundBox b)).h.toNat ≤ p.H.toNat) ∧
  (∀ p : Params, fullRect p = { x := 0, y := 0, w := p.W, h := p.H })

/-- R80, R32: a crop holds the samples of the rectangle row by row; the whole frame is in `FBS` order. -/
def Obligations.CropIsRowMajor : Prop :=
  (∀ (p : Params) (F : Memory) (r : Rect), (crop p F r).length = r.w.toNat * r.h.toNat ∧
    ∀ k, k < r.w.toNat * r.h.toNat → (crop p F r)[k]? =
      some (F.at p.W.toNat (r.x.toNat + k % r.w.toNat) (r.y.toNat + k / r.w.toNat))) ∧
  (∀ (p : Params) (F : Memory) (k : Nat), k < p.W.toNat * p.H.toNat →
    (crop p F (fullRect p))[k]? = some (F.at p.W.toNat (k % p.W.toNat) (k / p.W.toNat)) ∧
    (crop p F (fullRect p))[k]? = some (F.read k))

/-- R81: 0x80 and above gives 0xFF, below gives 0x00; all eight result bits equal bit 7; binarising twice is binarising
once. -/
def Obligations.BinThreshold : Prop :=
  ∀ v : Byte, (0x80 ≤ v.toNat → bin v = 0xFF) ∧ (v.toNat < 0x80 → bin v = 0x00) ∧
    (∀ i, i < 8 → (bin v).getLsbD i = v.getLsbD 7) ∧ bin (bin v) = bin v

/-! ## The tracker commands -/

/-- R84, R85, R95, R96, R97: WFULL, its word, and, in every state of a legal block, in the three ways of a transmission: the tokens of
the whole frame, the accumulator it commits, and everything else unchanged. The third way, a state that waits
and whose `OUT` lacks the unanswered token, is the model's choice (log 4). -/
def Obligations.FullUpdateOutcomes : Prop :=
  ∀ (s : State) (mode : Byte), s.params.wf →
    decode (BitVec.ofNat 16 (0x2000 + mode.toNat)) = .command (.wfull mode) ∧
    Transmits s (fullTokens s.params s.fb mode)
      { ga := if mode = 1 then
            (match s.pf with
              | some m => satAddGrid s.params s.ga (absDiffGrid s.params m s.fb)
              | none => s.ga)
          else Memory.zero
        pf := s.fb
        noop := false }
      (exec (.wfull mode) s) ∧
    (fullTokens s.params s.fb mode).length = 4 + s.params.W.toNat * s.params.H.toNat / spw s.params.updFmt

/-- R86, R88, R89, R91, R120 and the containment law of R93: with a PreviousFrame and some dirty sample, WPART sends one
rectangle: its bounds are multiples of 4, it lies in the frame, covers every dirty sample, and lies inside every other
aligned rectangle that does; what it sends, what it commits, and everything else unchanged. The third way of a transmission, a state that waits and
whose `OUT` lacks the unanswered token, is the model's choice (log 4). -/
def Obligations.PartialUpdateSendsSmallestBox : Prop :=
  ∀ (s : State) (mode : Byte) (m : Memory), s.params.wf → s.pf = some m → (∃ x y, Dirty s m mode x y) →
    ∃ r : Rect, r.Aligned ∧ r.InFrame s.params ∧ (∀ x y, Dirty s m mode x y → r.Covers x y) ∧
      (∀ r' : Rect, r'.Aligned → (∀ x y, Dirty s m mode x y → r'.Covers x y) →
        ∀ x y, r.Covers x y → r'.Covers x y) ∧
      Transmits s (areaTokens s.params s.fb r mode)
        { ga := if mode = 1 then satAddGrid s.params s.ga (absDiffGrid s.params m s.fb) else Memory.zero
          pf := s.fb
          noop := false }
        (exec (.wpart mode) s) ∧
      (areaTokens s.params s.fb r mode).length = 4 + r.w.toNat * r.h.toNat / spw s.params.updFmt

/-- R90, R94: with a PreviousFrame and no dirty sample, WPART sends no token, sets NOOP, clears ERR, and changes no other
state. -/
def Obligations.NoOpUpdateChangesNothing : Prop :=
  ∀ (s : State) (mode : Byte) (m : Memory), s.Inv → s.pf = some m → (∀ x y, ¬ Dirty s m mode x y) →
    exec (.wpart mode) s = .next { s with noop := true, err := 0, waiting := none }

/-- R87: with PreviousFrame absent WPART is WFULL; when it commits NOOP is 0, and when it fails PreviousFrame is still
absent, so that the next WPART bootstraps again. -/
def Obligations.BootstrapIsFullUpdate : Prop :=
  ∀ (s : State) (mode : Byte), s.params.wf → s.pf = none →
    exec (.wpart mode) s = exec (.wfull mode) s ∧
    ∃ t, exec (.wpart mode) s = .next t ∧
      (t.waiting = none → t.err = 0 → t.pf = some s.fb ∧ t.noop = false) ∧
      (t.waiting = none → t.err ≠ 0 → t.pf = none)

/-- R92: CLEAR fills FrameBuffer with 0xFF at once, then does the full update in INIT mode, every word 0xFFFF; the fill
stays when the transmission fails. The third way of a transmission, a state that waits and whose `OUT` lacks the
unanswered token, is the model's choice (log 4). -/
def Obligations.ClearOutcomes : Prop :=
  decode 0x2200 = .command .clear ∧
  ∀ s : State, s.params.wf →
    ∃ F : Memory, F.OfFrame s.params ∧ (∀ a, a < s.params.W.toNat * s.params.H.toNat → F.read a = 0xFF) ∧
      Transmits { s with fb := F }
        ([.waitRdy, .loadFull] ++
          List.replicate (s.params.W.toNat * s.params.H.toNat / spw s.params.updFmt) (.pixWord 0xFFFF) ++
          [.loadEnd, .display { x := 0, y := 0, w := s.params.W, h := s.params.H } 0])
        { ga := Memory.zero, pf := F, noop := false }
        (exec .clear s)

/-- R12, R25, R92: what WFULL, WPART and CLEAR leave alone: `S`, `PW`, the parameters, the host's side; FrameBuffer for
WFULL and WPART, and for CLEAR every address past the frame; and `OUT` is only extended. -/
def Obligations.TrackerCommandsFrame : Prop :=
  ∀ (i : Instr) (s t : State), ¬ IsPack i → s.Inv → exec i s = .next t →
    t.params = s.params ∧ t.stage = s.stage ∧ t.pw = s.pw ∧ t.host = s.host ∧ t.replies = s.replies ∧
    (i ≠ .clear → ∀ a, t.fb.read a = s.fb.read a) ∧
    (i = .clear → ∀ a, s.params.W.toNat * s.params.H.toNat ≤ a → t.fb.read a = s.fb.read a) ∧
    ∃ l, t.out = s.out ++ l

/-- R95, R113, R116: a command that ends in an error has changed neither the tracker state nor the registers; its last
token was NAKed and is in `OUT` after ACKed ones; BUSY_TIMEOUT if that token is WAITRDY, else SINK_FAIL (R44). -/
def Obligations.FailedCommandKeepsTracker : Prop :=
  ∀ (i : Instr) (s t : State), s.params.wf → exec i s = .next t → t.waiting = none → t.err ≠ 0 →
    t.ga = s.ga ∧ t.pf = s.pf ∧ t.noop = s.noop ∧ t.stage = s.stage ∧ t.pw = s.pw ∧
    (i ≠ .clear → t.fb = s.fb) ∧
    ∃ l u, t.out = s.out ++ (acked l ++ [{ token := u, answer := .nak }]) ∧
      (u = .waitRdy ∧ t.err = 2 ∧ l = [] ∨ u ≠ .waitRdy ∧ t.err = 3 ∧ l.head? = some .waitRdy)

/-- R93 item 1: after a WPART that succeeded, a second one of the same mode, or of DU mode, with FrameBuffer unchanged
sends nothing and is a no-op update. -/
def Obligations.SecondPartialIsNoOp : Prop :=
  ∀ (s t : State) (mode mode' : Byte), s.Inv → exec (.wpart mode) s = .next t → t.waiting = none → t.err = 0 →
    (mode' = mode ∨ mode' = 1) → exec (.wpart mode') t = .next { t with noop := true }

/-- R93 item 5, R92: a WPART of any mode right after a CLEAR that succeeded is a no-op update. -/
def Obligations.PartialAfterClearIsNoOp : Prop :=
  ∀ (s t : State) (mode : Byte), s.Inv → exec .clear s = .next t → t.waiting = none → t.err = 0 →
    exec (.wpart mode) t = .next { t with noop := true }

/-- R93 item 3: under DU updates no cell of GrayAccumulator falls; after a clean update that succeeded every cell is 0. -/
def Obligations.AccumulatorIsMonotone : Prop :=
  ∀ (s t : State) (mode : Byte) (i : Instr), s.Inv → (i = .wpart mode ∨ i = .wfull mode) → exec i s = .next t →
    (mode = 1 → ∀ a, (s.ga.read a).toNat ≤ (t.ga.read a).toNat) ∧
    (mode ≠ 1 → t.waiting = none → t.err = 0 → ∀ a, t.ga.read a = 0x00)

/-- R117: after an error, the same command again sends the very tokens, with the very result, that it would have sent
from the state before, with a sink that acknowledges. -/
def Obligations.RetryRepeatsTheUpdate : Prop :=
  ∀ (i : Instr) (s t : State), s.Inv → exec i s = .next t → t.waiting = none → t.err ≠ 0 →
    ∃ (new : List Sent) (u : State), exec i { s with sink := .allAck } = .next { u with out := s.out ++ new } ∧
      exec i { t with sink := .allAck } = .next { u with out := t.out ++ new } ∧
      new.head? = some { token := .waitRdy, answer := .ack } ∧ u.pf = some u.fb ∧ u.err = 0 ∧ u.waiting = none

/-- R98: two modes that are not DU do the same, but for the mode in the DISPLAY token. -/
def Obligations.ModeOnlyMarksDisplay : Prop :=
  ∀ (s t : State) (m m' : Byte) (full : Bool), s.params.wf → m ≠ 1 → m' ≠ 1 →
    exec (if full then .wfull m else .wpart m) { s with out := [] } = .next t → t.waiting = none →
    exec (if full then .wfull m' else .wpart m') { s with out := [] } =
      .next { t with out := t.out.map fun x => { x with token := x.token.withMode m' } }

/-! ## Rules of the whole block -/

/-- R21: "No command ever makes PreviousFrame absent again; only reset does." -/
def Obligations.OnlyResetDropsPreviousFrame : Prop :=
  ∀ s t : State, step s = .next t → s.pf ≠ none → t.pf = none → ∃ p l rest, s.host = .reset p l :: rest

/-- R25, R45: nothing sent is ever unsent: but for a reset, every step leaves `OUT` as it was or longer. -/
def Obligations.OutOnlyGrows : Prop :=
  ∀ s t : State, step s = .next t → s.NoReset → ∃ l, t.out = s.out ++ l

/-- R10, R11, R15, R16, R17, R113, R115: but for a reset, `PW` is changed only by a PACK command, a staging register only
by a host write to its address, STATUS.ERR only by a step that runs a write to CMD or goes on with a waiting command,
and the parameters by nothing. -/
def Obligations.WritersOfRegisters : Prop :=
  ∀ s t : State, step s = .next t → s.NoReset →
    t.params = s.params ∧
    (t.err ≠ s.err →
      s.waiting ≠ none ∨ s.waiting = none ∧ ∃ w rest, s.host = .write .reg 0x00 16 w :: rest) ∧
    (t.pw ≠ s.pw → ∃ w rest i, s.host = .write .reg 0x00 16 w :: rest ∧ decode w = .command i ∧ IsPack i) ∧
    (∀ j : Fin 8, t.stage[j] ≠ s.stage[j] →
      ∃ a v rest, s.host = .write .reg a 16 v :: rest ∧ a.toNat = 0x08 + j ∧ t.stage[j] = v.extractLsb' 0 8)

/-- R95, R99: but for a reset, GrayAccumulator, PreviousFrame and NOOP change only when an update command commits: the step
runs a write to CMD of a command that is not a PACK command, or goes on with a waiting command, and after it
PreviousFrame is the present FrameBuffer, ERR is 0, and no command is running. -/
def Obligations.TrackerChangesOnlyAtCommit : Prop :=
  ∀ s t : State, s.Inv → step s = .next t → s.NoReset → (t.ga ≠ s.ga ∨ t.pf ≠ s.pf ∨ t.noop ≠ s.noop) →
    (s.waiting ≠ none ∨ s.waiting = none ∧
      ∃ w rest i, s.host = .write .reg 0x00 16 w :: rest ∧ decode w = .command i ∧ ¬ IsPack i) ∧
    t.pf = some t.fb ∧ t.err = 0 ∧ t.waiting = none

/-- R20, R104, R92: but for a reset, a sample of FrameBuffer changes only by a host write to its address or by CLEAR. -/
def Obligations.WritersOfFrameBuffer : Prop :=
  ∀ (s t : State) (a : Nat), s.Inv → step s = .next t → s.NoReset → t.fb.read a ≠ s.fb.read a →
    (∃ b v rest, s.host = .write .fbs b 8 v :: rest ∧ b.toNat = a ∧ t.fb.read a = v.extractLsb' 0 8) ∨
    (∃ w rest, s.host = .write .reg 0x00 16 w :: rest ∧ decode w = .command .clear ∧ t.fb.read a = 0xFF)

/-- R25: "Nothing inside the block reads it": a command does the same whatever `OUT` held before, and so does every step
but a reset: a host transaction, a command issue, the wait, and a waiting command that goes on. -/
def Obligations.NothingReadsOut : Prop :=
  (∀ (i : Instr) (s t : State) (l : List Sent), s.params.wf → exec i s = .next t →
    exec i { s with out := l ++ s.out } = .next { t with out := l ++ t.out }) ∧
  (∀ (s t : State) (l : List Sent), s.NoReset → step s = .next t →
    step { s with out := l ++ s.out } = .next { t with out := l ++ t.out })

/-- R24: PreviousFrame and GrayAccumulator are hidden: what the host does and sees, but for the issue of a command and a
reset, is the same whatever the two grids hold, PreviousFrame present or absent, as long as PFV is the same. With no
command running a step leaves both grids alone. A waiting command that goes on does not read them either: if it commits
they are what it commits, and if not they stay. -/
def Obligations.HiddenGridsStayHidden : Prop :=
  ∀ (s t : State) (g : Memory) (pf' : Option Memory), pf'.isSome = s.pf.isSome → s.NoReset → step s = .next t →
    (s.waiting = none → (∀ w rest, s.host ≠ .write .reg 0x00 16 w :: rest) →
      step { s with ga := g, pf := pf' } = .next { t with ga := g, pf := pf' }) ∧
    (s.waiting ≠ none →
      (t.waiting = none ∧ t.err = 0 → step { s with ga := g, pf := pf' } = .next t) ∧
      (¬ (t.waiting = none ∧ t.err = 0) →
        step { s with ga := g, pf := pf' } = .next { t with ga := g, pf := pf' }))
end

