-- ==== Sys2Proof/Tests/Slice0.lean ====
section
/-! SUPPORT. The model's own tests: ill-formed parameters, decoding, each command on one small case whose result
95_test_vectors.md or a rule's own example gives, and a witness for the hypotheses of each statement. -/

namespace Sys2Proof.Tests

open Sys2Proof Sys2Proof.Machine

/-! ## Helpers -/

abbrev Out := Host.Outcome State Fault Refusal

/-- The next state of an outcome, if it is one. -/
def next? : Out → Option State
  | .next t => some t
  | .fault _ => none
  | .refused _ => none

/-- The refusal of an outcome, if it is one. -/
def refusal? : Out → Option Refusal
  | .next _ => none
  | .fault _ => none
  | .refused r => some r

/-- A field of the next state. -/
def field {α : Type} (f : State → α) (o : Out) : Option α := (next? o).map f

/-- The frame `W` by `H` with the format. -/
abbrev frame (w h : Word) (f : PixelFormat) : Params := { W := w, H := h, updFmt := f }

/-- A block after reset whose FrameBuffer lists these samples. -/
abbrev block (p : Params) (fb : List Host.Cell) : State := State.resetOf p { cells := fb }

/-- The same block after an update that left this PreviousFrame and accumulator. -/
abbrev updated (p : Params) (fb pf ga : List Host.Cell) : State :=
  { block p fb with pf := some { cells := pf }, ga := { cells := ga } }

/-- `n` ACKs and then this answer, for ever. -/
abbrev sinkThen (n : Nat) (a : Option Answer) : SinkPlan := { script := List.replicate n (some .ack), rest := a }

/-- The block with this input first. -/
abbrev given (i : HostInput) (s : State) : State := { s with host := [i] }

/-- The staging registers loaded. -/
abbrev staged (a b c d e f g h : Byte) : State :=
  { block (frame 8 4 .bpp4) [] with stage := #v[a, b, c, d, e, f, g, h] }

/-- The register value an outcome's last reply carries. -/
def lastReply (o : Out) : Option Reply := (next? o).bind fun t => t.replies.getLast?

/-- The invariant of a block with no command running and nothing sent, by checks on its data. -/
theorem inv_of_checks {s : State} (hw : s.waiting = none) (ho : s.out = []) (hp : s.params.wf)
    (hf : s.fb.wf ∧ ∀ c ∈ s.fb.cells, c.1 < s.params.size) (hg : s.ga.wf ∧ ∀ c ∈ s.ga.cells, c.1 < s.params.size)
    (hpf : s.pf.all (fun m => decide (m.wf ∧ ∀ c ∈ m.cells, c.1 < s.params.size)) = true)
    (he : s.err.toNat ≤ 3) (hn : s.noop = true → s.pfv = true) : s.Inv where
  params := hp
  fb := ⟨hf.1, hf.2⟩
  ga := ⟨hg.1, hg.2⟩
  pf m hm := by
    rw [hm] at hpf
    have h := of_decide_eq_true (by simpa using hpf : decide (m.wf ∧ ∀ c ∈ m.cells, c.1 < s.params.size) = true)
    exact ⟨h.1, h.2⟩
  err := he
  noop := hn
  out t ht := by rw [ho] at ht; cases ht
  waiting q hq := by rw [hw] at hq; cases hq

/-! ## Parameters: each check of `Params.wf` with a term it refuses (R4) -/

theorem test_wf_accepts_smallest_and_largest :
    (frame 4 4 .bpp2).wf ∧ (frame 65532 65532 .bpp8).wf := by decide
theorem test_wf_refuses_zero_width : ¬ (frame 0 4 .bpp4).wf := by decide
theorem test_wf_refuses_zero_height : ¬ (frame 4 0 .bpp4).wf := by decide
theorem test_wf_refuses_width_above_65532 : ¬ (frame 65535 4 .bpp4).wf := by decide
theorem test_wf_refuses_height_above_65532 : ¬ (frame 4 65533 .bpp4).wf := by decide
theorem test_wf_refuses_width_6 : ¬ (frame 6 4 .bpp4).wf := by decide
theorem test_wf_refuses_height_5 : ¬ (frame 4 5 .bpp4).wf := by decide

/-! ## Decoding: words written out from the fields of R50 to R54 (`OP` in 15:8, `ARG` in 7:0) -/

theorem test_decode_pack2 : decode 0b00010000_00000000 = .command .pack2 := by decide
theorem test_decode_pack3 : decode 0b00010000_00000001 = .command .pack3 := by decide
theorem test_decode_pack4 : decode 0b00010000_00000010 = .command .pack4 := by decide
theorem test_decode_pack8 : decode 0b00010000_00000011 = .command .pack8 := by decide
theorem test_decode_wfull : decode 0b00100000_11111111 = .command (.wfull 255) := by decide
theorem test_decode_wpart : decode 0b00100001_10000010 = .command (.wpart 0x82) := by decide
theorem test_decode_clear : decode 0b00100010_00000000 = .command .clear := by decide
/-- V13's reserved words. -/
theorem test_decode_reserved :
    decode 0x1004 = .reserved .packArg ∧ decode 0x10FF = .reserved .packArg ∧ decode 0x0000 = .reserved .reservedOp ∧
    decode 0x1100 = .reserved .reservedOp ∧ decode 0x2201 = .reserved .clearArg ∧
    decode 0x2300 = .reserved .reservedOp ∧ decode 0xFFFF = .reserved .reservedOp := by decide
/-- The host's entry: a table word decodes, bits above the row's are 0, a reserved word gives none. -/
theorem test_decodeTableWord :
    decodeTableWord 16 0x2101 = some (.wpart 1) ∧ decodeTableWord 16 0x1002 = some .pack4 ∧
    decodeTableWord 16 0x2201 = none := by decide
/-- A placed word is the first command to run after reset: the bootstrap of an 8 by 4 frame in 4bpp, 12 tokens (P2). -/
theorem test_withFetchWord : field (·.out.length) (step (State.reset.withFetchWord 16 0x2101)) = some 12 := by decide

/-! ## The packer (V1 to V5) -/

theorem test_pack2 : field (·.pw) (exec .pack2 (staged 0x00 0x40 0x80 0xC0 0xFF 0x3F 0x7F 0xBF)) = some 0x93E4 := by
  decide
theorem test_pack2_ends : field (·.pw) (exec .pack2 (staged 0xFF 0 0 0 0 0 0 0xFF)) = some 0xC003 := by decide
theorem test_pack3 : field (·.pw) (exec .pack3 (staged 0x1F 0x2F 0x3F 0x4F 0 0 0 0)) = some 0x4321 := by decide
theorem test_pack3_four_bits : field (·.pw) (exec .pack3 (staged 0x1F 0x1F 0x1F 0x1F 0 0 0 0)) = some 0x1111 := by
  decide
theorem test_pack4 : field (·.pw) (exec .pack4 (staged 0x00 0xFF 0x10 0xEF 0 0 0 0)) = some 0xE1F0 := by decide
/-- V13, last line: PACK4 after a reserved word leaves `STATUS` 0. -/
theorem test_pack4_clears_err : field statusWord (exec .pack4 { block (frame 8 4 .bpp4) [] with err := 1 }) = some 0 := by
  decide
theorem test_pack8 : field (·.pw) (exec .pack8 (staged 0x34 0x12 0 0 0 0 0 0)) = some 0x1234 := by decide
theorem test_pack8_low_byte : field (·.pw) (exec .pack8 (staged 0xFF 0x00 0 0 0 0 0 0)) = some 0x00FF := by decide
theorem test_packSeq_2bpp :
    packSeq .bpp2 [0xFF, 0, 0, 0, 0, 0xFF, 0, 0, 0, 0, 0xFF, 0, 0, 0, 0, 0xFF] = some [0x0C03, 0xC030] := by decide
theorem test_packSeq_undefined : packSeq .bpp4 [1, 2, 3, 4, 5, 6] = none := by decide
theorem test_unlane :
    (List.range 8).map (unlane .bpp2 0x93E4) = [0x00, 0x40, 0x80, 0xC0, 0xC0, 0x00, 0x40, 0x80] := by decide

/-! ## The region functions (V6 to V11) -/

theorem test_absDiff : absDiff 0x00 0xFF = 0xFF ∧ absDiff 0xFF 0x00 = 0xFF ∧ absDiff 0x7F 0x80 = 0x01 := by decide
theorem test_satAdd : satAdd 0x80 0x80 = 0xFF ∧ satAdd 0x7F 0x7F = 0xFE ∧ satAdd 0xFF 0x01 = 0xFF := by decide
theorem test_bin : bin 0x7F = 0x00 ∧ bin 0x80 = 0xFF := by decide
/-- V8: cells [5,1] and [6,2]. -/
theorem test_bbox : bbox (frame 8 8 .bpp4) { cells := [(13, 1), (22, 1)] } =
    some { minX := 5, minY := 1, maxX := 7, maxY := 3 } := by decide
theorem test_rectOf :
    rectOf (roundBox { minX := 1019, minY := 757, maxX := 1021, maxY := 759 }) =
      { x := 1016, y := 756, w := 8, h := 4 } := by decide
/-- V11: the addresses 4, 5, 6, 7, 12, 13, 14, 15. -/
theorem test_crop :
    crop (frame 8 4 .bpp4)
      { cells := [(4, 1), (5, 2), (6, 3), (7, 4), (12, 5), (13, 6), (14, 7), (15, 8)] }
      { x := 4, y := 0, w := 4, h := 2 } = [1, 2, 3, 4, 5, 6, 7, 8] := by decide

/-- The table of R40. -/
theorem test_kindCode :
    [Token.waitRdy, .loadFull, .loadArea { x := 0, y := 0, w := 4, h := 4 }, .pixWord 0, .loadEnd,
      .display { x := 0, y := 0, w := 4, h := 4 } 1].map Token.kindCode = [0, 1, 2, 3, 4, 5] := by decide

/-! ## The tracker commands -/

/-- The example of R84: W = H = 4, 4bpp, `FB[1,0] = 0xFF`, `WFULL GC16` after reset. -/
theorem test_wfull_tokens :
    field (·.out) (exec (.wfull 2) (block (frame 4 4 .bpp4) [(1, 0xFF)])) =
      some (acked [.waitRdy, .loadFull, .pixWord 0x00F0, .pixWord 0, .pixWord 0, .pixWord 0, .loadEnd,
        .display { x := 0, y := 0, w := 4, h := 4 } 2]) := by decide
/-- P6 line 6: saturation of `GA[0,0]`, `GA[3,3]` kept. -/
theorem test_wfull_accumulates :
    field (·.ga.cells) (exec (.wfull 1) (updated (frame 4 4 .bpp8) [] [(0, 0xFF)] [(0, 0xFF), (15, 0xFF)])) =
      some [(0, 0xFF), (15, 0xFF)] := by decide
/-- P3 line 4: `FB[5,1] = 0x90`, `FB[6,2] = 0x40`, PreviousFrame all 0. -/
theorem test_wpart_du_tokens :
    field (·.out) (exec (.wpart 1) (updated (frame 8 4 .bpp4) [(13, 0x90), (22, 0x40)] [] [])) =
      some (acked [.waitRdy, .loadArea { x := 4, y := 0, w := 4, h := 4 }, .pixWord 0, .pixWord 0x00F0, .pixWord 0,
        .pixWord 0, .loadEnd, .display { x := 4, y := 0, w := 4, h := 4 } 1]) := by decide
/-- P3 line 11: the box of a clean update is that of the accumulator, and the samples are not binarised. -/
theorem test_wpart_clean_tokens :
    field (·.out) (exec (.wpart 2)
        (updated (frame 8 4 .bpp4) [(24, 0x7F)] [(22, 0x40), (24, 0x7F)] [(13, 0xFF), (22, 0x40), (24, 0x7F)])) =
      some (acked [.waitRdy, .loadArea { x := 0, y := 0, w := 8, h := 4 }, .pixWord 0, .pixWord 0, .pixWord 0,
        .pixWord 0, .pixWord 0, .pixWord 0, .pixWord 0x0007, .pixWord 0, .loadEnd,
        .display { x := 0, y := 0, w := 8, h := 4 } 2]) := by decide
/-- The example of R92. -/
theorem test_clear_tokens :
    field (·.out) (exec .clear (block (frame 4 4 .bpp4) [(3, 0x44)])) =
      some (acked [.waitRdy, .loadFull, .pixWord 0xFFFF, .pixWord 0xFFFF, .pixWord 0xFFFF, .pixWord 0xFFFF, .loadEnd,
        .display { x := 0, y := 0, w := 4, h := 4 } 0]) := by decide
/-- P4 line 1: CLEAR with NAK at token 0: the fill stays, `STATUS` 0x0020. -/
theorem test_clear_fails :
    field (fun t => (t.fb.read 0, t.fb.read 15, statusWord t))
      (exec .clear { block (frame 4 4 .bpp4) [(3, 0x44)] with sink := sinkThen 0 (some .nak) }) =
      some (0xFF, 0xFF, 0x0020) := by decide
/-- P4 line 4: NAK at token 3: `STATUS` 0x0031 and four tokens. -/
theorem test_wpart_fails :
    field (fun t => (t.out.length, statusWord t)) (exec (.wpart 2)
      { updated (frame 4 4 .bpp4) [(1, 0x84)] [] [] with sink := sinkThen 3 (some .nak) }) = some (4, 0x0031) := by
  decide

/-! ## The host's transactions (V12) -/

theorem test_reads :
    (List.map (fun a => lastReply (step (given (.read .reg a 16) (block (frame 8 4 .bpp4) []))))
      [0, 1, 2, 3, 4, 5, 6, 7, 8, 13, 15, 16]) =
      [some .busError, some (.word 0), some (.word 8), some (.word 4), some (.word 2), some (.word 0),
       some .busError, some .busError, some (.word 0), some (.word 0), some (.word 0), some .busError] := by decide
theorem test_write_s0 :
    field (fun t => (t.stage[0], t.replies)) (step (given (.write .reg 8 16 0x1234) (block (frame 8 4 .bpp4) []))) =
      some (0x34, [.done]) := by decide
theorem test_writes_refused :
    (List.map (fun a => lastReply (step (given (.write .reg a 16 0) (block (frame 8 4 .bpp4) []))))
      [1, 5, 6, 7, 16]) = List.replicate 5 (some .busError) := by decide
theorem test_frame_buffer_edge :
    lastReply (step (given (.write .fbs 31 8 1) (block (frame 8 4 .bpp4) []))) = some .done ∧
    lastReply (step (given (.write .fbs 32 8 0) (block (frame 8 4 .bpp4) []))) = some .busError ∧
    lastReply (step (given (.read .fbs 19 8) (block (frame 8 4 .bpp4) [(19, 0x90)]))) = some (.sample 0x90) ∧
    lastReply (step (given (.read .fbs 32 8) (block (frame 8 4 .bpp4) []))) = some .busError := by decide
theorem test_wrong_width :
    lastReply (step (given (.read .fbs 0 16) (block (frame 8 4 .bpp4) []))) = some .busError ∧
    lastReply (step (given (.write .reg 8 8 1) (block (frame 8 4 .bpp4) []))) = some .busError := by decide
/-- V13: a reserved word leaves `STATUS` 0x0010. -/
theorem test_illegal_cmd :
    field statusWord (step (given (.write .reg 0 16 0x3000) (block (frame 8 4 .bpp4) []))) = some 0x0010 := by decide

/-! ## Witnesses: a state and operands that meet all hypotheses of each statement -/

/-- A block that has shown a frame and been drawn on since. -/
def drawn : State := updated (frame 8 4 .bpp4) [(13, 0x90), (22, 0x40)] [] []

/-- A block whose frame is the one it has shown. -/
def settled : State := updated (frame 8 4 .bpp4) [(13, 0x90)] [(13, 0x90)] []

/-- A block whose sink has not answered the second token of a WFULL. -/
def stuck : State := (next? (exec (.wfull 1) { drawn with sink := sinkThen 1 none })).getD drawn

/-- What `stuck` waits for. -/
def stuckFor : Pending :=
  stuck.waiting.getD { token := .waitRdy, later := [], commit := { ga := .zero, pf := .zero, noop := false } }

theorem drawn_inv : drawn.Inv := inv_of_checks rfl rfl (by decide) (by decide) (by decide) (by decide) (by decide) (by decide)
theorem settled_inv : settled.Inv :=
  inv_of_checks rfl rfl (by decide) (by decide) (by decide) (by decide) (by decide) (by decide)
theorem block_inv : (block (frame 8 4 .bpp2) [(31, 0x01)]).Inv :=
  inv_of_checks rfl rfl (by decide) (by decide) (by decide) (by decide) (by decide) (by decide)
theorem stuck_waits : stuck.waiting = some stuckFor ∧ stuckFor.token = .loadFull := by decide

theorem witness_CommandWordsAgree :
    (Instr.wpart 255).wf = true ∧ decode 0x21FF = .command (.wpart 255) ∧ decode 0x1000 = .command .pack2 := by decide
theorem witness_ReservedWords :
    let s := given (.write .reg 0x00 16 0x10FF) drawn
    (s.params.wf ∧ s.waiting = none) ∧ s.host = .write .reg 0x00 16 0x10FF :: [] ∧
      decode 0x10FF = .reserved .packArg := by decide
theorem drawn_legal : (frame 8 4 .bpp4).wf := by decide
/-- At every address, so at both ends of each clause. -/
theorem witness_RegisterReads (a : Addr) :
    let s := given (.read .reg a 16) drawn
    s.params.wf ∧ s.waiting = none ∧ s.host = .read .reg a 16 :: [] := ⟨drawn_legal, rfl, rfl⟩
/-- At every address but CMD's. -/
theorem witness_RegisterWrites (a : Addr) (ha : a ≠ 0x00) :
    let s := given (.write .reg a 16 0x1234) drawn
    s.params.wf ∧ s.waiting = none ∧ s.host = .write .reg a 16 0x1234 :: [] ∧ a ≠ 0x00 := ⟨drawn_legal, rfl, rfl, ha⟩
/-- At every address; 31 and 32 are the last inside and the first outside (`test_frame_buffer_edge`). -/
theorem witness_FrameBufferReads (a : Addr) :
    let s := given (.read .fbs a 8) drawn
    s.params.wf ∧ s.waiting = none ∧ s.host = .read .fbs a 8 :: [] := ⟨drawn_legal, rfl, rfl⟩
theorem witness_FrameBufferWrites (a : Addr) :
    let s := given (.write .fbs a 8 0x90) drawn
    s.params.wf ∧ s.fb.wf ∧ s.waiting = none ∧ s.host = .write .fbs a 8 0x90 :: [] :=
  ⟨drawn_legal, drawn_inv.fb.wf, rfl, rfl⟩
theorem witness_WrongWidthIsBusError :
    ∀ width ∈ [0, 8, 15, 17, 32], let s := given (.read .reg 1 width) drawn
      s.params.wf ∧ s.waiting = none ∧ width ≠ 16 ∧ s.host = .read .reg 1 width :: [] := by decide
theorem witness_WrongWidthIsBusError_fbs :
    ∀ width ∈ [0, 7, 9, 16], let s := given (.write .fbs 1 width 0) drawn
      s.params.wf ∧ s.waiting = none ∧ width ≠ 8 ∧ s.host = .write .fbs 1 width 0 :: [] := by decide
theorem witness_BusErrorChangesNothing :
    ∃ t, step (given (.read .fbs 32 8) drawn) = .next t ∧
      t.replies = (given (.read .fbs 32 8) drawn).replies ++ [.busError] := ⟨_, rfl, by decide⟩
theorem witness_StepRunsCommand :
    let s := given (.write .reg 0x00 16 0x2101) drawn
    s.params.wf ∧ s.waiting = none ∧ s.host = .write .reg 0x00 16 0x2101 :: [] ∧
      decode 0x2101 = .command (.wpart 1) := by decide
theorem witness_StepRunsCommand_placed : drawn.params.wf ∧ stuck.params.wf := by decide
theorem witness_IdleBlockWaits : drawn.params.wf ∧ drawn.waiting = none ∧ drawn.host = [] := by decide
theorem witness_ResetInputResets :
    ∀ s ∈ [drawn, stuck], let u := given (.reset (frame 4 4 .bpp8) [1, 2]) s
      u.params.wf ∧ (frame 4 4 .bpp8).wf ∧ u.host = .reset (frame 4 4 .bpp8) [1, 2] :: [] := by decide
theorem witness_ResetMeetsInvariant :
    (frame 4 4 .bpp8).wf ∧ (Memory.mk [(15, 0xFF)]).OfFrame (frame 4 4 .bpp8) :=
  ⟨by decide, ⟨by decide, by decide⟩⟩
theorem witness_StepKeepsInvariant :
    (given (.write .reg 0x00 16 0x2101) drawn).Inv ∧ ∃ t, step (given (.write .reg 0x00 16 0x2101) drawn) = .next t :=
  ⟨inv_of_checks rfl rfl (by decide) (by decide) (by decide) (by decide) (by decide) (by decide), _, rfl⟩
/-- The invariant also admits a command that waits. -/
theorem witness_StepKeepsInvariant_waiting : ∃ s : State, s.Inv ∧ s.waiting ≠ none ∧ ∃ t, step s = .next t := by
  refine ⟨{ drawn with
    sink := sinkThen 0 (some .ack)
    waiting := some { token := .loadEnd, later := [.display { x := 4, y := 0, w := 4, h := 4 } 1]
                      commit := { ga := drawn.ga, pf := drawn.fb, noop := false } } },
    { drawn_inv with waiting := ?_ }, by decide, _, rfl⟩
  intro q hq
  cases hq
  refine ⟨drawn_inv.ga, rfl, rfl, ?_⟩
  intro t ht
  simp only [List.mem_cons, List.not_mem_nil, or_false] at ht
  rcases ht with rfl | rfl
  · trivial
  · exact ⟨by decide, by decide⟩
theorem witness_IllegalParametersRefused :
    ∀ p ∈ [frame 0 4 .bpp4, frame 4 65535 .bpp4, frame 6 4 .bpp4, frame 4 5 .bpp4],
      ¬ (0 < p.W.toNat ∧ p.W.toNat ≤ 65532 ∧ 0 < p.H.toNat ∧ p.H.toNat ≤ 65532 ∧ p.W.toNat % 4 = 0 ∧
        p.H.toNat % 4 = 0) ∧
      (block p []).params = p ∧ drawn.params.wf ∧ (given (.reset p []) drawn).host = .reset p [] :: [] := by decide
theorem witness_NothingElseStops :
    drawn.params.wf ∧ refusal? (step (given (.reset (frame 0 4 .bpp4) []) drawn)) = some .illFormedParams ∧
      refusal? (step (block (frame 0 4 .bpp4) [])) = some .illFormedParams := by decide
theorem witness_SilentSinkHangs :
    stuck.params.wf ∧ stuck.waiting = some stuckFor ∧ (∀ n, stuck.sink.look n = none) ∧ stuck.NoReset :=
  ⟨by decide, stuck_waits.1, fun n => by show (([] : List (Option Answer))[n]?).getD none = none; simp,
    fun _ _ _ h => by cases h⟩
/-- The three ways of `Transmits`, for a waiting command with its sink changed. -/
theorem witness_WaitingCommandGoesOn :
    ∀ k ∈ [sinkThen 0 (some .ack), sinkThen 0 (some .nak), sinkThen 2 none], let s := { stuck with sink := k }
      s.params.wf ∧ s.waiting = some stuckFor ∧ s.host = [] := by decide
theorem witness_LaneLaw :
    0 < spw .bpp8 ∧ 1 < spw .bpp8 ∧ 3 < spw .bpp4 ∧ 3 < spw .bpp3 ∧ 7 < spw .bpp2 := by decide
theorem witness_PackSeqCutsGroups :
    (List.replicate 8 (0xFF : Byte)).length % spw .bpp2 = 0 ∧ (List.replicate 6 (0xFF : Byte)).length % spw .bpp4 ≠ 0 := by
  decide
theorem witness_AbsDiffOverIntegers : 7 < (frame 8 4 .bpp4).W.toNat ∧ 3 < (frame 8 4 .bpp4).H.toNat := by decide
theorem witness_SatAddCaps : 0 < (frame 8 4 .bpp4).W.toNat ∧ 3 < (frame 8 4 .bpp4).H.toNat := by decide
theorem witness_BoundingBoxIsExact :
    bbox (frame 8 4 .bpp4) .zero = none ∧
    bbox (frame 8 4 .bpp4) { cells := [(31, 1)] } = some { minX := 7, minY := 3, maxX := 8, maxY := 4 } := by decide
/-- V9's large frame: the maxima reach `W` and `H`. -/
theorem witness_RoundedBoxIsSmallest :
    let b : Box := { minX := 1019, minY := 757, maxX := 1021, maxY := 759 }
    let c : Box := { minX := 1016, minY := 756, maxX := 1024, maxY := 760 }
    (frame 1024 760 .bpp4).wf ∧ b.maxX ≤ (frame 1024 760 .bpp4).W.toNat ∧ b.maxY ≤ (frame 1024 760 .bpp4).H.toNat ∧
    c.minX % 4 = 0 ∧ c.minY % 4 = 0 ∧ c.maxX % 4 = 0 ∧ c.maxY % 4 = 0 ∧
    c.minX ≤ b.minX ∧ c.minY ≤ b.minY ∧ b.maxX ≤ c.maxX ∧ b.maxY ≤ c.maxY := by decide
theorem witness_RectOfRoundedBox :
    let b : Box := { minX := 65531, minY := 0, maxX := 65532, maxY := 65532 }
    (frame 65532 65532 .bpp4).wf ∧ b.minX < b.maxX ∧ b.maxX ≤ (frame 65532 65532 .bpp4).W.toNat ∧
    b.minY < b.maxY ∧ b.maxY ≤ (frame 65532 65532 .bpp4).H.toNat := by decide
theorem witness_CropIsRowMajor :
    0 < (fullRect (frame 8 4 .bpp4)).w.toNat * (fullRect (frame 8 4 .bpp4)).h.toNat ∧
    31 < (frame 8 4 .bpp4).W.toNat * (frame 8 4 .bpp4).H.toNat := by decide
theorem witness_BinThreshold : 0x80 ≤ (0x80 : Byte).toNat ∧ (0x7F : Byte).toNat < 0x80 ∧ (7 : Nat) < 8 := by decide

/-- The hypotheses of the three ways of a transmission of 12 tokens: all acknowledged; the first NAK at token 0 or at
token 11; no answer at token 11. -/
theorem witness_Transmits :
    SinkPlan.allAck.AcksFor 12 ∧
    ((sinkThen 0 (some .nak)).AcksFor 0 ∧ (sinkThen 0 (some .nak)).look 0 = some .nak) ∧
    ((sinkThen 11 (some .nak)).AcksFor 11 ∧ (sinkThen 11 (some .nak)).look 11 = some .nak) ∧
    ((sinkThen 11 none).AcksFor 11 ∧ (sinkThen 11 none).look 11 = none) := by
  simp only [SinkPlan.AcksFor]
  decide
theorem witness_FullUpdateOutcomes :
    drawn.params.wf ∧ (fullTokens drawn.params drawn.fb 1).length = 12 ∧ drawn.sink = .allAck := by decide
theorem witness_PartialUpdateSendsSmallestBox :
    drawn.params.wf ∧ drawn.pf = some .zero ∧ ∃ x y, Dirty drawn .zero 1 x y :=
  ⟨by decide, rfl, 5, 1, by decide, by decide, .inl (by decide)⟩
/-- A sample that is dirty only because the accumulator remembers it. -/
theorem witness_PartialUpdateSendsSmallestBox_clean :
    let s := updated (frame 8 4 .bpp4) [] [] [(31, 0x7F)]
    s.params.wf ∧ s.pf = some .zero ∧ ∃ x y, Dirty s .zero 2 x y :=
  ⟨by decide, rfl, 7, 3, by decide, by decide, .inr ⟨by decide, by decide⟩⟩
theorem witness_NoOpUpdateChangesNothing :
    settled.Inv ∧ settled.pf = some settled.fb ∧ ∀ x y, ¬ Dirty settled settled.fb 2 x y := by
  refine ⟨settled_inv, rfl, ?_⟩
  rintro x y ⟨-, -, h | ⟨-, h⟩⟩
  · exact h rfl
  · exact h rfl
theorem witness_BootstrapIsFullUpdate :
    (block (frame 8 4 .bpp4) []).params.wf ∧ (block (frame 8 4 .bpp4) []).pf = none ∧
    field (fun t => (t.waiting.isSome, t.err)) (exec (.wpart 2) (block (frame 8 4 .bpp4) [])) = some (false, 0) ∧
    field (fun t => (t.waiting.isSome, t.err))
      (exec (.wpart 2) { block (frame 8 4 .bpp4) [] with sink := sinkThen 1 (some .nak) }) = some (false, 3) := by decide
theorem witness_ClearOutcomes : drawn.params.wf := by decide
theorem witness_TrackerCommandsFrame :
    ¬ IsPack .clear ∧ drawn.Inv ∧ (∃ t, exec .clear drawn = .next t) ∧ ¬ IsPack (.wpart 1) ∧
      ∃ t, exec (.wpart 1) drawn = .next t :=
  ⟨by simp [IsPack], drawn_inv, ⟨_, rfl⟩, by simp [IsPack], _, rfl⟩
theorem witness_FailedCommandKeepsTracker :
    drawn.params.wf ∧ (∃ t, exec (.wpart 1) { drawn with sink := sinkThen 3 (some .nak) } = .next t ∧
      t.waiting = none ∧ t.err ≠ 0) ∧
    ∃ t, exec .clear { drawn with sink := sinkThen 0 (some .nak) } = .next t ∧ t.waiting = none ∧ t.err ≠ 0 :=
  ⟨by decide, ⟨_, rfl, by decide, by decide⟩, _, rfl, by decide, by decide⟩
theorem witness_SecondPartialIsNoOp :
    drawn.Inv ∧ ∃ t, exec (.wpart 2) drawn = .next t ∧ t.waiting = none ∧ t.err = 0 :=
  ⟨drawn_inv, _, rfl, by decide, by decide⟩
theorem witness_PartialAfterClearIsNoOp :
    drawn.Inv ∧ ∃ t, exec .clear drawn = .next t ∧ t.waiting = none ∧ t.err = 0 :=
  ⟨drawn_inv, _, rfl, by decide, by decide⟩
theorem witness_AccumulatorIsMonotone :
    drawn.Inv ∧ (∃ t, exec (.wpart 1) drawn = .next t) ∧
      ∃ t, exec (.wfull 0) drawn = .next t ∧ t.waiting = none ∧ t.err = 0 :=
  ⟨drawn_inv, ⟨_, rfl⟩, _, rfl, by decide, by decide⟩
theorem witness_RetryRepeatsTheUpdate :
    ({ drawn with sink := sinkThen 3 (some .nak) } : State).Inv ∧
    ∃ t, exec (.wpart 2) { drawn with sink := sinkThen 3 (some .nak) } = .next t ∧ t.waiting = none ∧ t.err ≠ 0 :=
  ⟨inv_of_checks rfl rfl (by decide) (by decide) (by decide) (by decide) (by decide) (by decide), _, rfl, by decide,
    by decide⟩
theorem witness_ModeOnlyMarksDisplay :
    drawn.params.wf ∧ (2 : Byte) ≠ 1 ∧ (255 : Byte) ≠ 1 ∧
      ∃ t, exec (.wpart 2) { drawn with out := [] } = .next t ∧ t.waiting = none :=
  ⟨by decide, by decide, by decide, _, rfl, by decide⟩
theorem witness_OnlyResetDropsPreviousFrame :
    ∃ t, step (given (.reset (frame 4 4 .bpp8) []) drawn) = .next t ∧
      (given (.reset (frame 4 4 .bpp8) []) drawn).pf ≠ none ∧ t.pf = none := ⟨_, rfl, by decide, by decide⟩
theorem witness_OutOnlyGrows :
    (∃ t, step (given (.write .reg 0x00 16 0x2101) drawn) = .next t ∧ t.out ≠ []) ∧
      (given (.write .reg 0x00 16 0x2101) drawn).NoReset := ⟨⟨_, rfl, by decide⟩, fun _ _ _ h => by cases h⟩
theorem witness_WritersOfRegisters :
    (∃ t, step (given (.write .reg 0x00 16 0x1003) (staged 1 2 3 4 5 6 7 8)) = .next t ∧ t.pw ≠ 0) ∧
    (∃ t, step (given (.write .reg 0x0F 16 0x12FE) drawn) = .next t ∧ t.stage[7] ≠ drawn.stage[7]) ∧
    (given (.write .reg 0x0F 16 0x12FE) drawn).NoReset :=
  ⟨⟨_, rfl, by decide⟩, ⟨_, rfl, by decide⟩, fun _ _ _ h => by cases h⟩
/-- ERR changed by a write to CMD, and by a waiting command. -/
theorem witness_WritersOfRegisters_err :
    (given (.write .reg 0x00 16 0x3000) drawn).NoReset ∧
    (∃ t, step (given (.write .reg 0x00 16 0x3000) drawn) = .next t ∧ t.err ≠ drawn.err) ∧
    ({ stuck with sink := sinkThen 0 (some .nak) } : State).NoReset ∧
    ∃ t, step { stuck with sink := sinkThen 0 (some .nak) } = .next t ∧ t.err ≠ stuck.err :=
  ⟨(fun _ _ _ h => by cases h), ⟨_, rfl, by decide⟩, (fun _ _ _ h => by cases h), _, rfl, by decide⟩
theorem witness_TrackerChangesOnlyAtCommit :
    (given (.write .reg 0x00 16 0x2101) drawn).Inv ∧ (given (.write .reg 0x00 16 0x2101) drawn).NoReset ∧
    ∃ t, step (given (.write .reg 0x00 16 0x2101) drawn) = .next t ∧ t.ga ≠ drawn.ga ∧ t.pf ≠ drawn.pf :=
  ⟨inv_of_checks rfl rfl (by decide) (by decide) (by decide) (by decide) (by decide) (by decide),
    (fun _ _ _ h => by cases h), _, rfl, by decide, by decide⟩
theorem witness_WritersOfFrameBuffer :
    (given (.write .fbs 31 8 0x55) drawn).Inv ∧ (given (.write .fbs 31 8 0x55) drawn).NoReset ∧
    (∃ t, step (given (.write .fbs 31 8 0x55) drawn) = .next t ∧ t.fb.read 31 ≠ drawn.fb.read 31) ∧
    ∃ t, step (given (.write .reg 0x00 16 0x2200) drawn) = .next t ∧ t.fb.read 0 ≠ drawn.fb.read 0 :=
  ⟨inv_of_checks rfl rfl (by decide) (by decide) (by decide) (by decide) (by decide) (by decide),
    (fun _ _ _ h => by cases h), ⟨_, rfl, by decide⟩, _, rfl, by decide⟩
theorem witness_NothingReadsOut :
    drawn.params.wf ∧ (∃ t, exec (.wpart 1) drawn = .next t ∧ t.out ≠ []) ∧
    (stuck.NoReset ∧ ∃ t, step stuck = .next t) ∧
    (given (.read .reg 0x01 16) drawn).NoReset ∧ ∃ t, step (given (.read .reg 0x01 16) drawn) = .next t :=
  ⟨by decide, ⟨_, rfl, by decide⟩, ⟨(fun _ _ _ h => by cases h), _, rfl⟩, (fun _ _ _ h => by cases h), _, rfl⟩
/-- A read of STATUS with PFV 0 and with PFV 1, and two different grids. -/
theorem witness_HiddenGridsStayHidden :
    ∀ p ∈ [((none : Option Memory), (none : Option Memory)), (some Memory.zero, some (Memory.mk [(0, 0xFF)]))],
      let s := { given (.read .reg 0x01 16) drawn with pf := p.1 }
      p.2.isSome = s.pf.isSome ∧ s.waiting = none ∧ s.host = [.read .reg 0x01 16] ∧
        (next? (step s)).isSome = true := by decide
/-- A waiting command that commits, one that fails, one that still waits, in each case a next state. -/
theorem witness_HiddenGridsStayHidden_waiting :
    ∀ k ∈ [sinkThen 0 (some .ack), sinkThen 0 (some .nak), sinkThen 2 none], let s := { stuck with sink := k }
      (some { cells := [(0, 0xFF)] } : Option Memory).isSome = s.pf.isSome ∧ s.host = [] ∧ s.waiting ≠ none ∧
        (next? (step s)).isSome = true := by decide

end Sys2Proof.Tests
end

section
/-! Steps that are refused: a block with illegal parameters, and a reset that would sample such parameters. -/

namespace Sys2Proof.Machine

/-- `Params.wf` goes dimension by dimension; R4 lists the bounds first and the multiples of 4 last. -/
theorem params_wf_iff {p : Params} :
    p.wf ↔ 0 < p.W.toNat ∧ p.W.toNat ≤ 65532 ∧ 0 < p.H.toNat ∧ p.H.toNat ≤ 65532 ∧
      p.W.toNat % 4 = 0 ∧ p.H.toNat % 4 = 0 := by
  constructor
  · rintro ⟨⟨hW, hW', hW4⟩, hH, hH', hH4⟩
    exact ⟨hW, hW', hH, hH', hW4, hH4⟩
  · rintro ⟨hW, hW', hH, hH', hW4, hH4⟩
    exact ⟨⟨hW, hW', hW4⟩, hH, hH', hH4⟩

theorem step_of_not_wf {s : State} (hp : ¬ s.params.wf) : step s = .refused .illFormedParams :=
  if_neg hp

theorem resetInput_of_not_wf {p : Params} (hp : ¬ p.wf) (l : List Byte) (s : State) :
    resetInput p l s = .refused .illFormedParams :=
  if_neg hp

/-- A reset at hand is taken whether or not a command waits (R125, R129). -/
theorem step_reset {s : State} {p : Params} {l : List Byte} {rest : List HostInput} (hs : s.params.wf)
    (hh : s.host = .reset p l :: rest) : step s = resetInput p l { s with host := rest } := by
  cases hw : s.waiting with
  | none => simp only [step_ready hs hw, hostTurn, hh, hw]
  | some q => simp only [step, stepBlock, if_pos hs, hw, waitTurn, hh]

/-- Settles O16: an illegal pair fails the check of the step on the block's own parameters, and the check of the reset
input on the parameters it brings. -/
theorem illegalParametersRefused : Obligations.IllegalParametersRefused := by
  intro p hillegal
  have hp : ¬ p.wf := mt params_wf_iff.mp hillegal
  constructor
  · rintro s rfl
    exact step_of_not_wf hp
  · intro s l rest hs hh
    calc step s = resetInput p l { s with host := rest } := step_reset hs hh
      _ = .refused .illFormedParams := resetInput_of_not_wf hp l _

end Sys2Proof.Machine
end

section
/-! The invariant (R4, R23, R60, R95, R120): one lemma per operation of the state, then every command and every step. -/

namespace Sys2Proof.Machine

/-- What makes a waiting command good is a matter of the parameters and FrameBuffer alone. -/
theorem Pending.Good.congr {q : Pending} {s t : State} (h : q.Good s) (hp : t.params = s.params) (hf : t.fb = s.fb) :
    q.Good t where
  ga := hp ▸ h.ga
  pf := hf ▸ h.pf
  noop := h.noop
  tokens := hp ▸ h.tokens

namespace State.Inv

variable {s : State}

/-- The invariant says nothing of the staging registers, `PW`, the inputs and the host's record. -/
theorem frame (h : s.Inv) (stage : Vector Byte 8) (pw : Word) (host : List HostInput) (sink : SinkPlan)
    (replies : List Reply) :
    State.Inv { s with stage := stage, pw := pw, host := host, sink := sink, replies := replies } :=
  { h with waiting := fun q hq => (h.waiting q hq).congr rfl rfl }

theorem reply (h : s.Inv) (r : Reply) : (reply r s).Inv :=
  h.frame s.stage s.pw s.host s.sink _

theorem completeIssue (h : s.Inv) : (completeIssue s).Inv := by
  cases hw : s.waiting with
  | none => exact (completeIssue_of_ended hw).symm ▸ h.reply .done
  | some q => exact (completeIssue_of_waiting hw).symm ▸ h

/-- `ERR` may take any of its four codes (R60, R110). -/
theorem withErr (h : s.Inv) {e : BitVec 4} (he : e.toNat ≤ 3) : State.Inv { s with err := e } :=
  { h with err := he, waiting := fun q hq => (h.waiting q hq).congr rfl rfl }

/-- With no command running FrameBuffer may be any grid of the frame. -/
theorem withFb (h : s.Inv) (hw : s.waiting = none) {F : Memory} (hF : F.OfFrame s.params) :
    State.Inv { s with fb := F } :=
  { h with fb := hF, waiting := fun _ hq => absurd (hw.symm.trans hq) (Option.some_ne_none _).symm }

theorem raiseErr (h : s.Inv) (e : Err) : (raiseErr e s).Inv :=
  { h.withErr (e := e.code) (by cases e <;> decide) with waiting := fun _ hq => nomatch hq }

/-- The commit of a grid of the frame and of the present FrameBuffer (R95). -/
theorem commit (h : s.Inv) {c : Commit} (hga : c.ga.OfFrame s.params) (hpf : c.pf = s.fb) : (commit c s).Inv where
  params := h.params
  fb := h.fb
  ga := hga
  pf := by rintro _ ⟨⟩; exact hpf ▸ h.fb
  err := Nat.zero_le 3
  noop _ := rfl
  out := h.out
  waiting _ hq := nomatch hq

/-- A token inside the frame has been answered (R25, R120). -/
theorem sent (h : s.Inv) {u : Token} (hu : u.InFrame s.params) (k : SinkPlan) (a : Answer) :
    State.Inv { s with sink := k, out := s.out ++ [{ token := u, answer := a }] } :=
  { h.frame s.stage s.pw s.host k s.replies with
    out := List.forall_mem_append.mpr ⟨h.out, List.forall_mem_singleton.mpr hu⟩
    waiting := fun q hq => (h.waiting q hq).congr rfl rfl }

/-- A transmission inside the frame, whatever the sink does. -/
theorem transmit (h : s.Inv) {ts : List Token} {c : Commit} (hga : c.ga.OfFrame s.params) (hpf : c.pf = s.fb)
    (hnoop : c.noop = false) (hts : ∀ u ∈ ts, u.InFrame s.params) : (transmit ts c s).Inv := by
  induction ts generalizing s with
  | nil => exact h.commit hga hpf
  | cons u us ih =>
    obtain ⟨hu, hus⟩ := List.forall_mem_cons.mp hts
    rw [Machine.transmit]
    split
    · next k _ =>
      exact { h.frame s.stage s.pw s.host k s.replies with
        waiting := by rintro _ ⟨⟩; exact ⟨hga, hpf, hnoop, hts⟩ }
    · exact ih (h.sent hu _ .ack) hga hpf hus
    · exact (h.sent hu _ .nak).raiseErr _

/-- A waiting command that goes on (R124). -/
theorem resume (h : s.Inv) {q : Pending} (hw : s.waiting = some q) : (resume q s).Inv :=
  have good := h.waiting q hw
  h.transmit good.ga good.pf good.noop good.tokens

/-- A command of a block that runs none. -/
theorem exec (h : s.Inv) (hw : s.waiting = none) {i : Instr} {t : State} (he : exec i s = .next t) : t.Inv := by
  obtain ⟨u, hu, hcases⟩ := exec_cases h.params i
  cases hu.symm.trans he
  obtain ⟨-, w, rfl⟩ | ⟨-, F, c, hF, hpf, hga, hsend⟩ := hcases
  · exact (h.withErr (e := 0) (Nat.zero_le 3)).frame s.stage w s.host s.sink s.replies
  · have hF : F.OfFrame s.params := by
      obtain rfl | ⟨rfl, -⟩ := hF
      · exact h.fb
      · exact white_ofFrame _
    obtain ⟨hnoop, ts, us, hts, -, -, rfl⟩ | ⟨-, rfl, -, rfl⟩ := hsend
    · exact (h.withFb hw hF).transmit (hga h) hpf hnoop hts
    · exact h.commit (hga h) hpf

/-- After reset (R126). -/
theorem resetOf {p : Params} (hp : p.wf) {m : Memory} (hm : m.OfFrame p) : (State.resetOf p m).Inv where
  params := hp
  fb := hm
  ga := Memory.ofFrame_zero p
  pf _ h := nomatch h
  err := Nat.zero_le 3
  noop h := nomatch h
  out _ h := nomatch h
  waiting _ h := nomatch h

theorem resetBlock {p : Params} (hp : p.wf) (l : List Byte) (s : State) : (resetBlock p l s).Inv :=
  (resetOf hp (launchContents_ofFrame p l)).frame _ 0 s.host s.sink s.replies

theorem turn (h : s.Inv) {t : State} (ht : Turn s t) : t.Inv := by
  cases ht with
  | idle _ _ ht => exact ht ▸ h
  | wait q hw ht => exact ht ▸ (h.resume hw).completeIssue
  | answer i rest r _ _ _ ht => exact ht ▸ (h.frame s.stage s.pw rest s.sink s.replies).reply r
  | stage a v j rest _ _ _ ht => exact ht ▸ (h.frame _ s.pw rest s.sink s.replies).reply .done
  | frame a v rest hw _ ha ht =>
    exact ht ▸ ((h.frame s.stage s.pw rest s.sink s.replies).withFb hw (h.fb.write ha _)).reply .done
  | command w rest i u hw _ _ he ht =>
    exact ht ▸ ((h.frame s.stage s.pw rest s.sink s.replies).exec hw he).completeIssue
  | illegal w rest e _ _ _ ht =>
    exact ht ▸ ((h.frame s.stage s.pw rest s.sink s.replies).raiseErr .illegalCmd).reply .done

end State.Inv

/-- Settles O15: a reset starts from the invariant anew, and every other turn keeps it. -/
theorem stepKeepsInvariant : Obligations.StepKeepsInvariant := by
  intro s t h hstep
  obtain ⟨-, ⟨p, l, rest, -, hp, rfl⟩ | ⟨-, hturn⟩⟩ := step_cases hstep
  · exact State.Inv.resetBlock hp l _
  · exact h.turn hturn

end Sys2Proof.Machine
end

section
/-! What commands and steps write (R10, R11, R20, R21, R25, R45): every tracker command is one transmission, and each
kind of turn writes its own pieces of the state only. -/

namespace Sys2Proof.Machine

/-- A PACK command writes `PW` and `ERR` (R12). -/
theorem exec_of_isPack {i : Instr} (hi : IsPack i) {s t : State} (he : exec i s = .next t) :
    ∃ w, t = { s with pw := w, err := 0 } := by
  obtain rfl | rfl | rfl | rfl := hi <;> · cases he; exact ⟨_, rfl⟩

/-- A tracker command is one transmission, without tokens when there is nothing to send (R90), from the state with the
FrameBuffer it works on. -/
theorem exec_of_not_isPack {i : Instr} (hi : ¬ IsPack i) {s t : State} (hp : s.params.wf) (he : exec i s = .next t) :
    ∃ F ts c, (F = s.fb ∨ F = white s.params ∧ i = .clear) ∧ t = transmit ts c { s with fb := F } := by
  obtain ⟨u, hu, hcases⟩ := exec_cases hp i
  cases hu.symm.trans he
  obtain ⟨hpack, -⟩ | ⟨-, F, c, hF, -, -, ⟨-, ts, -, -, -, -, ht⟩ | ⟨-, rfl, -, ht⟩⟩ := hcases
  · exact absurd hpack hi
  · exact ⟨F, ts, c, hF, ht⟩
  · exact ⟨s.fb, [], c, .inl rfl, ht⟩

/-- A transmission leaves PreviousFrame alone or commits one (R95). -/
theorem transmit_pf (ts : List Token) (c : Commit) (s : State) :
    (transmit ts c s).pf = s.pf ∨ (transmit ts c s).pf = some c.pf := by
  obtain ⟨k, h | ⟨l, u, -, h⟩ | ⟨l, u, us, -, h⟩⟩ := transmit_cases ts c s <;> simp [h]

/-- A transmission only extends `OUT` (R45). -/
theorem transmit_out_grows (ts : List Token) (c : Commit) (s : State) : ∃ l, (transmit ts c s).out = s.out ++ l := by
  obtain ⟨k, h | ⟨l, u, -, h⟩ | ⟨l, u, us, -, h⟩⟩ := transmit_cases ts c s <;> rw [h]
  · exact ⟨acked ts, rfl⟩
  · exact ⟨acked l ++ [{ token := u, answer := .nak }], rfl⟩
  · exact ⟨acked l, rfl⟩

/-- But for a reset, every step is a turn. -/
theorem turn_of_step {s t : State} (h : step s = .next t) (hr : s.NoReset) : s.params.wf ∧ Turn s t := by
  obtain ⟨hp, ⟨p, l, rest, hh, -⟩ | ⟨-, hturn⟩⟩ := step_cases h
  · exact absurd hh (hr p l rest)
  · exact ⟨hp, hturn⟩

/-- The map of R14 read backwards at a staging register. -/
theorem toNat_of_regAt_stage {a : Addr} {j : Fin 8} (h : regAt a = some (.stage j)) : a.toNat = 0x08 + j := by
  simp only [regAt] at h
  split_ifs at h <;> cases h
  next hrange => exact (Nat.add_sub_cancel' hrange.1).symm

/-- `White` differs from a grid of the frame only where it is 0xFF. -/
theorem read_white_of_ne {p : Params} {m : Memory} (hm : m.OfFrame p) {a : Nat}
    (h : (white p).read a ≠ m.read a) : (white p).read a = 0xFF := by
  have hin : a < p.size := by
    by_contra hout
    have hout := Nat.le_of_not_lt hout
    exact h (((white_ofFrame p).read_outside hout).trans (hm.read_outside hout).symm)
  rw [white, Memory.read_tabulate, if_pos hin]

/-! ## The tracker commands -/

/-- Settles O36: a transmission keeps the registers, the host's side and FrameBuffer, and CLEAR's fill, a grid of the
frame like the FrameBuffer it replaces, reads the same past the frame. -/
theorem trackerCommandsFrame : Obligations.TrackerCommandsFrame := by
  intro i s t hi h he
  obtain ⟨F, ts, c, hF, rfl⟩ := exec_of_not_isPack hi h.params he
  obtain ⟨hparams, hstage, hpw, hfb, hhost, hreplies⟩ := transmit_frame ts c { s with fb := F }
  refine ⟨hparams, hstage, hpw, hhost, hreplies, fun hne a => ?_, fun _ a ha => ?_, transmit_out_grows ts c _⟩
  · obtain rfl | ⟨-, hclear⟩ := hF
    · rw [hfb]
    · exact absurd hclear hne
  · obtain rfl | ⟨rfl, -⟩ := hF
    · rw [hfb]
    · rw [hfb]
      exact ((white_ofFrame _).read_outside ha).trans (h.fb.read_outside ha).symm

/-! ## Every step -/

theorem exec_pf_ne_none {i : Instr} {s t : State} (hp : s.params.wf) (he : exec i s = .next t) (hpf : s.pf ≠ none) :
    t.pf ≠ none := by
  by_cases hi : IsPack i
  · obtain ⟨w, rfl⟩ := exec_of_isPack hi he
    exact hpf
  · obtain ⟨F, ts, c, -, rfl⟩ := exec_of_not_isPack hi hp he
    obtain h | h := transmit_pf ts c { s with fb := F } <;> simp [h, hpf]

/-- Settles O43: only a command and a waiting command touch PreviousFrame, and they commit one or leave it. -/
theorem onlyResetDropsPreviousFrame : Obligations.OnlyResetDropsPreviousFrame := by
  intro s t hstep hpf hnone
  obtain ⟨hp, ⟨p, l, rest, hh, -⟩ | ⟨-, hturn⟩⟩ := step_cases hstep
  · exact ⟨p, l, rest, hh⟩
  · refine absurd hnone ?_
    cases hturn with
    | idle _ _ ht => exact ht ▸ hpf
    | wait q _ ht =>
      obtain h | h := transmit_pf (q.token :: q.later) q.commit s <;> simp [ht, resume, h, hpf]
    | answer i rest r _ _ _ ht => exact ht ▸ hpf
    | stage a v j rest _ _ _ ht => exact ht ▸ hpf
    | frame a v rest _ _ _ ht => exact ht ▸ hpf
    | command w rest i u _ _ _ he ht =>
      rw [ht, completeIssue_pf]
      exact exec_pf_ne_none (s := { s with host := rest }) hp he hpf
    | illegal w rest e _ _ _ ht => exact ht ▸ hpf

theorem exec_out_grows {i : Instr} {s t : State} (hp : s.params.wf) (he : exec i s = .next t) :
    ∃ l, t.out = s.out ++ l := by
  by_cases hi : IsPack i
  · obtain ⟨w, rfl⟩ := exec_of_isPack hi he
    exact ⟨[], (List.append_nil _).symm⟩
  · obtain ⟨F, ts, c, -, rfl⟩ := exec_of_not_isPack hi hp he
    exact transmit_out_grows ts c { s with fb := F }

/-- Settles O44: only a command and a waiting command touch `OUT`, and they extend it. -/
theorem outOnlyGrows : Obligations.OutOnlyGrows := by
  intro s t hstep hr
  obtain ⟨hp, hturn⟩ := turn_of_step hstep hr
  cases hturn with
  | idle _ _ ht => exact ⟨[], by simp [ht]⟩
  | wait q _ ht => simpa [ht, resume] using transmit_out_grows (q.token :: q.later) q.commit s
  | answer i rest r _ _ _ ht => exact ⟨[], by simp [ht]⟩
  | stage a v j rest _ _ _ ht => exact ⟨[], by simp [ht]⟩
  | frame a v rest _ _ _ ht => exact ⟨[], by simp [ht]⟩
  | command w rest i u _ _ _ he ht => simpa [ht] using exec_out_grows (s := { s with host := rest }) hp he
  | illegal w rest e _ _ _ ht => exact ⟨[], by simp [ht]⟩

/-- The registers a command may write: the parameters and the staging registers never, `PW` by a PACK command only. -/
theorem exec_registers {i : Instr} {s t : State} (hp : s.params.wf) (he : exec i s = .next t) :
    t.params = s.params ∧ t.stage = s.stage ∧ (t.pw ≠ s.pw → IsPack i) := by
  by_cases hi : IsPack i
  · obtain ⟨w, rfl⟩ := exec_of_isPack hi he
    exact ⟨rfl, rfl, fun _ => hi⟩
  · obtain ⟨F, ts, c, -, rfl⟩ := exec_of_not_isPack hi hp he
    obtain ⟨hparams, hstage, hpw, -⟩ := transmit_frame ts c { s with fb := F }
    exact ⟨hparams, hstage, fun hne => absurd hpw hne⟩

/-- Settles O45: which of these registers each kind of turn writes. -/
theorem writersOfRegisters : Obligations.WritersOfRegisters := by
  intro s t hstep hr
  obtain ⟨hp, hturn⟩ := turn_of_step hstep hr
  cases hturn with
  | idle _ _ ht => simp [ht]
  | wait q hw ht =>
    obtain ⟨hparams, hstage, hpw, -⟩ := transmit_frame (q.token :: q.later) q.commit s
    simp [ht, resume, hparams, hstage, hpw, hw]
  | answer i rest r _ _ _ ht => simp [ht]
  | stage a v j rest _ hh ha ht =>
    subst ht
    refine ⟨rfl, fun hne => absurd rfl hne, fun hne => absurd rfl hne, fun j' hne => ?_⟩
    have hj : j = j' := by
      by_contra hj
      exact hne (Vector.getElem_set_ne j.isLt j'.isLt (Fin.val_ne_of_ne hj))
    subst hj
    exact ⟨a, v, rest, hh, toNat_of_regAt_stage ha, by simp [BitVec.setWidth_eq_extractLsb']⟩
  | frame a v rest _ _ _ ht => simp [ht]
  | command w rest i u hw hh hd he ht =>
    obtain ⟨hparams, hstage, hpw⟩ := exec_registers (s := { s with host := rest }) hp he
    subst ht
    exact ⟨by simpa using hparams, fun _ => .inr ⟨hw, w, rest, hh⟩,
      fun hne => ⟨w, rest, i, hh, hd, hpw (by simpa using hne)⟩, fun j hne => absurd (by simp [hstage]) hne⟩
  | illegal w rest e hw hh _ ht =>
    subst ht
    exact ⟨rfl, fun _ => .inr ⟨hw, w, rest, hh⟩, fun hne => absurd rfl hne, fun j hne => absurd rfl hne⟩

/-- Settles O47: a host write stores its sample at its address, CLEAR fills with 0xFF, and a transmission, of a command
or of a waiting one, leaves FrameBuffer alone. -/
theorem writersOfFrameBuffer : Obligations.WritersOfFrameBuffer := by
  intro s t a h hstep hr hne
  obtain ⟨hp, hturn⟩ := turn_of_step hstep hr
  cases hturn with
  | idle _ _ ht => exact absurd (by rw [ht]) hne
  | wait q _ ht =>
    obtain ⟨-, -, -, hfb, -⟩ := transmit_frame (q.token :: q.later) q.commit s
    exact absurd (by rw [ht, completeIssue_fb, resume, hfb]) hne
  | answer i rest r _ _ _ ht => exact absurd (by rw [ht, reply_fb]) hne
  | stage b v j rest _ _ _ ht => exact absurd (by rw [ht, reply_fb]) hne
  | frame b v rest _ hh _ ht =>
    have hread : t.fb.read a = if a = b.toNat then v.setWidth 8 else s.fb.read a := by
      rw [ht]; exact Memory.read_write h.fb.wf _ _ a
    have hab : a = b.toNat := by
      by_contra hab
      exact hne (hread.trans (if_neg hab))
    exact .inl ⟨b, v, rest, hh, hab.symm, by rw [hread, if_pos hab, BitVec.setWidth_eq_extractLsb' (by omega)]⟩
  | command w rest i u _ hh hd he ht =>
    rw [ht, completeIssue_fb] at hne ⊢
    by_cases hi : IsPack i
    · obtain ⟨w, rfl⟩ := exec_of_isPack hi he
      exact absurd rfl hne
    · obtain ⟨F, ts, c, hF, rfl⟩ := exec_of_not_isPack (s := { s with host := rest }) hi hp he
      obtain ⟨-, -, -, hfb, -⟩ := transmit_frame ts c { s with host := rest, fb := F }
      rw [hfb] at hne ⊢
      obtain rfl | ⟨rfl, rfl⟩ := hF
      · exact absurd rfl hne
      · exact .inr ⟨w, rest, hh, hd, read_white_of_ne h.fb hne⟩
  | illegal w rest e _ _ _ ht => exact absurd (by rw [ht]; rfl) hne

/-- Settles O12: with no transaction to come the host's turn is the state itself. -/
theorem idleBlockWaits : Obligations.IdleBlockWaits := by
  intro s hp hw hh
  calc step s = hostTurn s := step_ready hp hw
    _ = .next s := by simp only [hostTurn, hh]

end Sys2Proof.Machine
end

section
/-! What nothing inside the block and no host read looks at (R24, R25): the token history and the two hidden grids. -/

namespace Sys2Proof.Machine

/-! ## Steps that run no command: the history and both grids at once -/

/-- The same state with another token history and other hidden grids. -/
def State.withHidden (o : List Sent) (g : Memory) (pf : Option Memory) (s : State) : State :=
  { s with out := o, ga := g, pf := pf }

@[simp] theorem State.withHidden_host (o : List Sent) (g : Memory) (pf : Option Memory) (s : State) :
    (s.withHidden o g pf).host = s.host := rfl

theorem fbRead_withHidden (o : List Sent) (g : Memory) (pf : Option Memory) (a : Addr) (s : State) :
    fbRead a (s.withHidden o g pf) = (fbRead a s).withHidden o g pf := by
  rw [fbRead, fbRead, apply_ite (State.withHidden o g pf)]
  rfl

theorem regWrite_withHidden (o : List Sent) (g : Memory) (pf : Option Memory) (a : Addr) (v : Word) (s : State) :
    regWrite a v (s.withHidden o g pf) = (regWrite a v s).withHidden o g pf := by
  simp only [regWrite]
  split <;> rfl

theorem fbWrite_withHidden (o : List Sent) (g : Memory) (pf : Option Memory) (a : Addr) (v : Byte) (s : State) :
    fbWrite a v (s.withHidden o g pf) = (fbWrite a v s).withHidden o g pf := by
  rw [fbWrite, fbWrite, apply_ite (State.withHidden o g pf)]
  rfl

/-- A write that issues no command. -/
theorem hostWrite_withHidden (o : List Sent) (g : Memory) (pf : Option Memory) {sp : Space} {a : Addr} {width : Nat}
    {v : Word} {s t : State} (hcmd : ¬ (sp = .reg ∧ width = 16 ∧ a = 0x00))
    (h : hostWrite sp a width v s = .next t) :
    hostWrite sp a width v (s.withHidden o g pf) = .next (t.withHidden o g pf) := by
  cases sp with
  | reg =>
    by_cases hwd : width = 16
    · have ha : ¬ a = 0x00 := fun ha => hcmd ⟨rfl, hwd, ha⟩
      simp only [hostWrite, if_pos hwd, if_neg ha, regWrite_withHidden] at h ⊢
      cases h; rfl
    · simp only [hostWrite, if_neg hwd] at h ⊢
      cases h; rfl
  | fbs =>
    by_cases hwd : width = 8
    · simp only [hostWrite, if_pos hwd, fbWrite_withHidden] at h ⊢
      cases h; rfl
    · simp only [hostWrite, if_neg hwd] at h ⊢
      cases h; rfl

section

variable {s t : State} {pf : Option Memory} (hpf : pf.isSome = s.pf.isSome) (o : List Sent) (g : Memory)
include hpf

/-- The only register that shows anything of the grids is STATUS, and it shows PFV (R15, R101). -/
theorem regValue_withHidden (r : Reg) : regValue r (s.withHidden o g pf) = regValue r s := by
  cases r with
  | status => simp only [regValue, statusWord, State.pfv, State.withHidden, hpf]
  | _ => rfl

theorem regRead_withHidden (a : Addr) : regRead a (s.withHidden o g pf) = (regRead a s).withHidden o g pf := by
  simp only [regRead, regValue_withHidden hpf]
  cases (regAt a).bind (regValue · s) <;> rfl

theorem hostRead_withHidden (sp : Space) (a : Addr) (width : Nat) :
    hostRead sp a width (s.withHidden o g pf) = (hostRead sp a width s).withHidden o g pf := by
  cases sp with
  | reg =>
    simp only [hostRead, regRead_withHidden hpf, apply_ite (State.withHidden o g pf)]
    rfl
  | fbs =>
    simp only [hostRead, fbRead_withHidden, apply_ite (State.withHidden o g pf)]
    rfl

/-- A step that runs no command does the same whatever the history and the grids are: no transaction reads or
writes them, but for PFV in STATUS. -/
theorem step_withHidden (hr : s.NoReset) (hw : s.waiting = none)
    (hcmd : ∀ w rest, s.host ≠ .write .reg 0x00 16 w :: rest) (h : step s = .next t) :
    step (s.withHidden o g pf) = .next (t.withHidden o g pf) := by
  obtain ⟨hp, -⟩ := step_cases h
  rw [step_ready hp hw] at h
  rw [step_ready (s := s.withHidden o g pf) hp hw]
  rcases hh : s.host with _ | ⟨i, rest⟩ <;>
    simp only [hostTurn, State.withHidden_host, hh] at h ⊢
  · cases h; rfl
  · cases i with
    | read sp a width =>
      cases h
      exact congrArg _ (hostRead_withHidden (s := { s with host := rest }) hpf o g sp a width)
    | write sp a width v =>
      refine hostWrite_withHidden (s := { s with host := rest }) o g pf ?_ h
      rintro ⟨rfl, rfl, rfl⟩
      exact hcmd v rest hh
    | reset p l => exact absurd hh (hr p l rest)

end

/-- A step that runs no command writes neither the history nor the hidden grids. -/
theorem eq_withHidden_of_step {s t : State} (hr : s.NoReset) (hw : s.waiting = none)
    (hcmd : ∀ w rest, s.host ≠ .write .reg 0x00 16 w :: rest) (h : step s = .next t) :
    t = t.withHidden s.out s.ga s.pf :=
  Host.Outcome.next.inj (h.symm.trans (step_withHidden rfl s.out s.ga hr hw hcmd h))

theorem completeIssue_grids (s : State) (g : Memory) (pf : Option Memory) :
    completeIssue { s with ga := g, pf := pf } = { completeIssue s with ga := g, pf := pf } := by
  simp only [completeIssue]
  split <;> rfl

/-- `transmit_grids` of a waiting command (R95). -/
theorem resume_grids (q : Pending) (s : State) (g : Memory) (pf : Option Memory) :
    resume q { s with ga := g, pf := pf } =
      if (resume q s).waiting = none ∧ (resume q s).err = 0 then resume q s
      else { resume q s with ga := g, pf := pf } :=
  transmit_grids (q.token :: q.later) q.commit s g pf

/-- Settles O49: a step without a command shows of the grids PFV alone; a waiting command overwrites both when it
commits and touches neither when it does not. -/
theorem hiddenGridsStayHidden : Obligations.HiddenGridsStayHidden := by
  intro s t g pf' hpf hr h
  constructor
  · intro hw hcmd
    have hstep := step_withHidden hpf s.out g hr hw hcmd h
    rw [eq_withHidden_of_step hr hw hcmd h] at hstep ⊢
    exact hstep
  · intro hw
    obtain ⟨q, hq⟩ := Option.ne_none_iff_exists'.mp hw
    obtain ⟨hp, -⟩ := step_cases h
    have ht : completeIssue (resume q s) = t := Host.Outcome.next.inj ((step_waiting hp hq hr).symm.trans h)
    have hstep : step { s with ga := g, pf := pf' } = .next (completeIssue (resume q { s with ga := g, pf := pf' })) :=
      step_waiting hp hq hr
    have hends : t.waiting = none ∧ t.err = 0 ↔ (resume q s).waiting = none ∧ (resume q s).err = 0 := by
      rw [← ht, completeIssue_waiting, completeIssue_err]
    rw [hstep, resume_grids, hends]
    constructor
    · intro hc
      rw [if_pos hc, ht]
    · intro hc
      rw [if_neg hc, completeIssue_grids, ht]

/-! ## Commands: the history -/

section

variable {s t : State} (l : List Sent)

theorem sendRegion_out {kind : LoadKind} {r : Rect} {samples : List Byte} {mode : Byte} {c : Commit}
    (h : sendRegion kind r samples mode c s = .next t) :
    sendRegion kind r samples mode c { s with out := l ++ s.out } = .next { t with out := l ++ t.out } := by
  simp only [sendRegion] at h ⊢
  split at h
  · cases h
    exact congrArg _ (transmit_out _ c s l)
  · cases h

theorem partialUpdate_out {mode : Byte} {pf : Memory} (h : partialUpdate mode pf s = .next t) :
    partialUpdate mode pf { s with out := l ++ s.out } = .next { t with out := l ++ t.out } := by
  have hbox : partialBox mode pf { s with out := l ++ s.out } = partialBox mode pf s := rfl
  cases hb : partialBox mode pf s with
  | none =>
    cases (partialUpdate_none hb).symm.trans h
    exact partialUpdate_none (hbox.trans hb)
  | some b =>
    simp only [partialUpdate, hbox, hb] at h ⊢
    exact sendRegion_out l h

theorem exec_out {i : Instr} (h : exec i s = .next t) :
    exec i { s with out := l ++ s.out } = .next { t with out := l ++ t.out } := by
  cases i with
  | pack2 => cases h; rfl
  | pack3 => cases h; rfl
  | pack4 => cases h; rfl
  | pack8 => cases h; rfl
  | wfull mode => exact sendRegion_out l h
  | wpart mode =>
    simp only [exec, execWPart] at h ⊢
    split at h
    · exact sendRegion_out l h
    · exact partialUpdate_out l h
  | clear => exact sendRegion_out (s := { s with fb := white s.params }) l h

theorem completeIssue_out_append (s : State) :
    completeIssue { s with out := l ++ s.out } = { completeIssue s with out := l ++ (completeIssue s).out } := by
  simp only [completeIssue]
  split <;> rfl

theorem resume_out (q : Pending) (s : State) :
    resume q { s with out := l ++ s.out } = { resume q s with out := l ++ (resume q s).out } :=
  transmit_out (q.token :: q.later) q.commit s l

theorem issue_out {w : Word} (h : issue w s = .next t) :
    issue w { s with out := l ++ s.out } = .next { t with out := l ++ t.out } := by
  simp only [issue] at h ⊢
  split at h
  · split at h
    · next u he =>
      cases h
      simp only [exec_out l he, completeIssue_out_append]
    · cases h
    · cases h
  · cases h
    exact congrArg _ (completeIssue_out_append l (raiseErr .illegalCmd s))

end

/-- Settles O48: a command and a waiting command go the same way after any history, and a step without a command leaves
the history alone. -/
theorem nothingReadsOut : Obligations.NothingReadsOut := by
  refine ⟨fun i s t l _ h => exec_out l h, fun s t l hr h => ?_⟩
  obtain ⟨hp, -⟩ := step_cases h
  obtain hw | ⟨q, hw⟩ := Option.eq_none_or_eq_some s.waiting
  · by_cases hcmd : ∃ w rest, s.host = .write .reg 0x00 16 w :: rest
    · obtain ⟨w, rest, hh⟩ := hcmd
      rw [step_ready hp hw] at h
      rw [step_ready (s := { s with out := l ++ s.out }) hp hw]
      simp only [hostTurn, hh] at h ⊢
      exact issue_out (s := { s with host := rest }) l h
    · have hcmd : ∀ w rest, s.host ≠ .write .reg 0x00 16 w :: rest := fun w rest hh => hcmd ⟨w, rest, hh⟩
      have hstep := step_withHidden rfl (l ++ s.out) s.ga hr hw hcmd h
      rw [eq_withHidden_of_step hr hw hcmd h] at hstep ⊢
      exact hstep
  · have ht : completeIssue (resume q s) = t := Host.Outcome.next.inj ((step_waiting hp hw hr).symm.trans h)
    have hstep : step { s with out := l ++ s.out } = .next (completeIssue (resume q { s with out := l ++ s.out })) :=
      step_waiting hp hw hr
    rw [hstep, resume_out, completeIssue_out_append, ht]

end Sys2Proof.Machine
end

section
/-! The host's accesses of a wrong width (R36). -/

namespace Sys2Proof.Machine

/-- The one width, in bits, that each space takes (R36). -/
def Space.accessWidth : Space → Nat
  | .reg => 16
  | .fbs => 8

theorem hostRead_of_width_ne {sp : Space} {width : Nat} (hwd : width ≠ sp.accessWidth) (a : Addr) (s : State) :
    hostRead sp a width s = reply .busError s := by
  cases sp with
  | reg => exact if_neg hwd
  | fbs => exact if_neg hwd

theorem hostWrite_of_width_ne {sp : Space} {width : Nat} (hwd : width ≠ sp.accessWidth) (a : Addr) (v : Word)
    (s : State) : hostWrite sp a width v s = .next (reply .busError s) := by
  cases sp with
  | reg => exact if_neg hwd
  | fbs => exact if_neg hwd

section

variable {s : State} {sp : Space} {a : Addr} {width : Nat} {rest : List HostInput}

/-- A block with no command running takes the host's read at once (R107). -/
theorem step_read (hp : s.params.wf) (hw : s.waiting = none) (hh : s.host = .read sp a width :: rest) :
    step s = .next (hostRead sp a width { s with host := rest }) := by
  simp only [step_ready hp hw, hostTurn, hh]

/-- A block with no command running takes the host's write at once (R107). -/
theorem step_write {v : Word} (hp : s.params.wf) (hw : s.waiting = none)
    (hh : s.host = .write sp a width v :: rest) :
    step s = hostWrite sp a width v { s with host := rest } := by
  simp only [step_ready hp hw, hostTurn, hh]

end

/-- Settles O9: the step takes the transaction, and the read and the write alike check the width before all else. -/
theorem wrongWidthIsBusError : Obligations.WrongWidthIsBusError := by
  intro s sp a width v rest hp hw hwidth hhost
  have hwd : width ≠ sp.accessWidth := hwidth
  obtain hread | hwrite := hhost
  · calc step s = .next (hostRead sp a width { s with host := rest }) := step_read hp hw hread
      _ = .next (reply .busError { s with host := rest }) := by rw [hostRead_of_width_ne hwd]
  · calc step s = hostWrite sp a width v { s with host := rest } := step_write hp hw hwrite
      _ = .next (reply .busError { s with host := rest }) := hostWrite_of_width_ne hwd a v _

end Sys2Proof.Machine
end

section
/-! The command words (30_encoding.md): their fields, the decoder against the encoder, and the reserved words. -/

namespace Sys2Proof

/-! ## The fields of a word -/

theorem toNat_opField (w : Word) : (opField w).toNat = w.toNat / 256 := by
  have hw : w.toNat < 65536 := w.isLt
  simp only [opField, BitVec.extractLsb'_toNat, Nat.shiftRight_eq_div_pow]
  omega

theorem toNat_argField (w : Word) : (argField w).toNat = w.toNat % 256 := by
  simp [argField]

/-- A word is its `OP` and its `ARG` (R50). -/
theorem opField_append_argField (w : Word) : opField w ++ argField w = w :=
  BitVec.extractLsb'_append_extractLsb'_eq_extractLsb' rfl |>.trans BitVec.extractLsb'_eq_self

@[simp] theorem opField_encode (i : Instr) : opField (encode i) = opOf i := (Laws.TableRow.fields _ _).1

@[simp] theorem argField_encode (i : Instr) : argField (encode i) = argOf i := (Laws.TableRow.fields _ _).2

theorem toNat_encode (i : Instr) : (encode i).toNat = 256 * (opOf i).toNat + (argOf i).toNat := by
  have hop := toNat_opField (encode i)
  have harg := toNat_argField (encode i)
  rw [opField_encode] at hop
  rw [argField_encode] at harg
  omega

/-! ## The PACK commands -/

theorem code_formatOfCode (c : BitVec 2) : (formatOfCode c).code = c := by
  revert c
  decide

theorem opOf_packOf (f : PixelFormat) : opOf (packOf f) = 0x10 := by
  cases f <;> rfl

theorem argOf_packOf (f : PixelFormat) : argOf (packOf f) = (0 : BitVec 6) ++ f.code := by
  cases f <;> rfl

/-- An `ARG` with bits 7:2 clear is its format code (R52). -/
theorem argOf_packOf_formatOfCode {a : Byte} (ha : a.extractLsb' 2 6 = 0) :
    argOf (packOf (formatOfCode (a.extractLsb' 0 2))) = a := by
  rw [argOf_packOf, code_formatOfCode, ← ha]
  exact BitVec.extractLsb'_append_extractLsb'_eq_extractLsb' rfl |>.trans BitVec.extractLsb'_eq_self

/-! ## The decoder against the encoder -/

/-- A word decodes to a command exactly when its two fields are the command's (R51 to R54). -/
theorem decode_eq_command_iff {w : Word} {i : Instr} :
    decode w = .command i ↔ opField w = opOf i ∧ argField w = argOf i := by
  constructor
  · intro h
    simp only [decode] at h
    split at h
    · next hop =>
      split at h
      · next harg =>
        cases h
        exact ⟨hop.trans (opOf_packOf _).symm, (argOf_packOf_formatOfCode harg).symm⟩
      · cases h
    · split at h
      · next hop => cases h; exact ⟨hop, rfl⟩
      · split at h
        · next hop => cases h; exact ⟨hop, rfl⟩
        · split at h
          · next hop =>
            split at h
            · next harg => cases h; exact ⟨hop, harg⟩
            · cases h
          · cases h
  · rintro ⟨hop, harg⟩
    simp only [decode, hop, harg]
    cases i <;> rfl

theorem decode_encode (i : Instr) : decode (encode i) = .command i :=
  decode_eq_command_iff.mpr ⟨opField_encode i, argField_encode i⟩

theorem encode_of_decode {w : Word} {i : Instr} (h : decode w = .command i) : encode i = w := by
  obtain ⟨hop, harg⟩ := decode_eq_command_iff.mp h
  calc encode i = opField w ++ argField w := by rw [hop, harg, encode]
    _ = w := opField_append_argField w

theorem encode_injective : Function.Injective encode := by
  intro i j h
  have hd : Decoded.command i = .command j := by rw [← decode_encode i, h, decode_encode j]
  exact Decoded.command.inj hd

/-- Settles O1: a command's word has the command's fields, and the fields are the whole word. -/
theorem commandWordsAgree : Obligations.CommandWordsAgree :=
  ⟨fun i _ => decode_encode i, fun _ _ h => encode_of_decode h⟩

/-- Settles O2: the decoder run on the fourteen words. -/
theorem writtenWordsDecode : Obligations.WrittenWordsDecode := by
  unfold Obligations.WrittenWordsDecode
  decide

/-- Settles O3: the word of a mode is `OP` times 256 plus the mode; the other words are single values. -/
theorem assemblerWords : Obligations.AssemblerWords :=
  ⟨rfl, rfl, rfl, rfl, fun mode => toNat_encode (.wfull mode), fun mode => toNat_encode (.wpart mode), rfl⟩

/-! ## The reserved words -/

/-- The three clauses of R57 on the fields of the word. -/
theorem decode_reserved_iff {w : Word} :
    (∃ e, decode w = .reserved e) ↔
      (opField w ≠ 0x10 ∧ opField w ≠ 0x20 ∧ opField w ≠ 0x21 ∧ opField w ≠ 0x22) ∨
        (opField w = 0x10 ∧ (argField w).extractLsb' 2 6 ≠ 0) ∨ (opField w = 0x22 ∧ argField w ≠ 0) := by
  simp only [decode]
  split
  · next h10 => split <;> simp_all
  · next h10 =>
    split
    · next h20 => simp [h20]
    · next h20 =>
      split
      · next h21 => simp [h21]
      · next h21 =>
        split
        · next h22 => split <;> simp_all
        · next h22 => exact iff_of_true ⟨_, rfl⟩ (.inl ⟨h10, h20, h21, h22⟩)

theorem opField_eq_iff {w : Word} {b : Byte} : opField w = b ↔ w.toNat / 256 = b.toNat := by
  rw [← BitVec.toNat_inj, toNat_opField]

theorem argField_eq_zero_iff {w : Word} : argField w = 0 ↔ w.toNat % 256 = 0 := by
  rw [← BitVec.toNat_inj, toNat_argField]
  rfl

theorem packArg_eq_zero_iff {w : Word} : (argField w).extractLsb' 2 6 = 0 ↔ w.toNat % 256 / 4 = 0 := by
  rw [← BitVec.toNat_inj, BitVec.extractLsb'_toNat, toNat_argField, Nat.shiftRight_eq_div_pow]
  simp only [BitVec.ofNat_eq_ofNat, BitVec.toNat_ofNat]
  omega

/-! ## The legal words, listed -/

/-- The 256 display modes (R53). -/
def allModes : List Byte := (List.finRange 256).map BitVec.ofFin

theorem length_allModes : allModes.length = 256 := by
  simp [allModes]

theorem nodup_allModes : allModes.Nodup :=
  (List.nodup_finRange 256).map fun _ _ => BitVec.ofFin.inj

theorem mem_allModes (mode : Byte) : mode ∈ allModes :=
  List.mem_map.mpr ⟨mode.toFin, List.mem_finRange _, rfl⟩

/-- Every command once. -/
def allCommands : List Instr :=
  [.pack2, .pack3, .pack4, .pack8] ++ allModes.map .wfull ++ allModes.map .wpart ++ [.clear]

theorem length_allCommands : allCommands.length = 4 + 256 + 256 + 1 := by
  simp [allCommands, length_allModes]

theorem nodup_allCommands : allCommands.Nodup := by
  have hfull : (allModes.map Instr.wfull).Nodup := nodup_allModes.map fun _ _ => Instr.wfull.inj
  have hpart : (allModes.map Instr.wpart).Nodup := nodup_allModes.map fun _ _ => Instr.wpart.inj
  have hmodes : (allModes.map Instr.wfull).Disjoint (allModes.map Instr.wpart) := by
    simp [List.disjoint_left]
  simp [allCommands, List.nodup_append', hfull, hpart, hmodes]

theorem mem_allCommands (i : Instr) : i ∈ allCommands := by
  cases i <;> simp [allCommands, mem_allModes]

theorem mem_map_encode_allCommands {w : Word} : w ∈ allCommands.map encode ↔ ∃ i, decode w = .command i := by
  constructor
  · intro h
    obtain ⟨i, -, rfl⟩ := List.mem_map.mp h
    exact ⟨i, decode_encode i⟩
  · rintro ⟨i, h⟩
    exact List.mem_map.mpr ⟨i, mem_allCommands i, encode_of_decode h⟩

end Sys2Proof

namespace Sys2Proof.Machine

/-- With no command running, an error shows in `ERR` alone (R113). -/
theorem raiseErr_of_ended {s : State} (hw : s.waiting = none) (e : Err) : raiseErr e s = { s with err := e.code } := by
  rw [raiseErr, ← hw]

/-- Issuing a reserved word makes `ERR` 1 and completes (R111). -/
theorem issue_of_reserved {w : Word} {e : DecodeError} (hd : decode w = .reserved e) {s : State}
    (hw : s.waiting = none) : issue w s = .next { s with err := 1, replies := s.replies ++ [.done] } := by
  calc issue w s = .next (completeIssue (raiseErr .illegalCmd s)) := by simp only [issue, hd]
    _ = .next (reply .done (raiseErr .illegalCmd s)) := by rw [completeIssue_of_ended rfl]
    _ = .next (reply .done { s with err := Err.illegalCmd.code }) := by rw [raiseErr_of_ended hw]

/-- A write of a command word to CMD issues the word (R105). -/
theorem hostWrite_cmd (w : Word) (s : State) : hostWrite .reg 0x00 16 w s = issue w s := rfl

/-- Settles O4: the decoder's branches are the clauses of R57; the legal words are the words of all commands; the write
of a reserved word is the issue that raises ILLEGAL_CMD. -/
theorem reservedWords : Obligations.ReservedWords := by
  refine ⟨fun w => ?_, ⟨allCommands.map encode, ?_, ?_, fun w => mem_map_encode_allCommands⟩, ?_⟩
  · simpa only [ne_eq, opField_eq_iff, argField_eq_zero_iff, packArg_eq_zero_iff,
      BitVec.reduceToNat] using decode_reserved_iff (w := w)
  · exact nodup_allCommands.map encode_injective
  · rw [List.length_map, length_allCommands]
  · intro s w e rest hp hw hh hd
    calc step s = hostWrite .reg 0x00 16 w { s with host := rest } := step_write hp hw hh
      _ = issue w { s with host := rest } := hostWrite_cmd w _
      _ = .next { s with host := rest, err := 1, replies := s.replies ++ [.done] } := issue_of_reserved hd hw

end Sys2Proof.Machine
end

section
/-! The packer (40_pack.md): its loops are one loop with a field width; the bit concatenations (R65 to R68), the lane
law (R70), the groups (R69) and the results of the PACK commands (R71 to R74). -/

namespace Sys2Proof.Machine

/-! ## One turn of a pack loop -/

/-- The field a format of lane width `F` keeps of a sample (R70). -/
def topField (F : Nat) (b : Byte) : BitVec F := b.extractLsb' (8 - F) F

theorem toNat_topField {F : Nat} (hF : F ≤ 8) (b : Byte) : (topField F b).toNat = b.toNat / 2 ^ (8 - F) := by
  have hlt : b.toNat / 2 ^ (8 - F) < 2 ^ F := by
    rw [Nat.div_lt_iff_lt_mul (Nat.two_pow_pos _), ← Nat.pow_add, Nat.add_sub_cancel' hF]
    exact b.isLt
  rw [topField, toNat_field, Nat.mod_eq_of_lt hlt]

/-- One turn of a pack loop whose fields are `F` bits wide. -/
def shiftIn (F : Nat) (word : Word) (b : Byte) : Word := (word <<< F) ||| (b >>> (8 - F)).setWidth 16

/-- A turn, bit by bit: the field below, the word moved up by the width of the field. -/
theorem getLsbD_shiftIn {F : Nat} (hF : F ≤ 8) (word : Word) (b : Byte) (j : Nat) :
    (shiftIn F word b).getLsbD j =
      if j < F then (topField F b).getLsbD j else decide (j < 16) && word.getLsbD (j - F) := by
  simp only [shiftIn, topField, BitVec.getLsbD_or, BitVec.getLsbD_shiftLeft, BitVec.getLsbD_setWidth,
    BitVec.getLsbD_ushiftRight, BitVec.getLsbD_extractLsb']
  split
  · next hj => simp [hj, show j < 16 by omega]
  · next hj => simp [hj, BitVec.getLsbD_of_ge b (8 - F + j) (by omega)]

/-- A turn puts the field below what is there; a word keeps the lowest 16 bits. -/
theorem shiftIn_setWidth {F : Nat} (hF : F ≤ 8) {n : Nat} (x : BitVec n) (b : Byte) :
    shiftIn F (x.setWidth 16) b = (x ++ topField F b).setWidth 16 := by
  refine BitVec.eq_of_getLsbD_eq fun j hj => ?_
  rw [getLsbD_shiftIn hF, BitVec.getLsbD_setWidth, BitVec.getLsbD_setWidth, BitVec.getLsbD_append]
  split
  · simp [hj]
  · simp [hj, show j - F < 16 by omega]

theorem shiftIn3_eq_shiftIn4 (word : Word) (b : Byte) : shiftIn3 word b = shiftIn4 word b := by
  have hmask : (b &&& 0xFE) >>> 4 = b >>> 4 := by
    revert b
    decide
  rw [shiftIn3, hmask, shiftIn4]

/-! ## The loop -/

/-- A pack loop on its samples in order: the last is shifted in first, so that the first stands lowest. -/
def packLoop (F : Nat) (l : List Byte) : Word := l.foldr (fun b word => shiftIn F word b) 0

theorem packLoop_cons (F : Nat) (b : Byte) (l : List Byte) : packLoop F (b :: l) = shiftIn F (packLoop F l) b := rfl

theorem packLoop_singleton {F : Nat} (hF : F ≤ 8) (b : Byte) : packLoop F [b] = (topField F b).setWidth 16 := by
  refine BitVec.eq_of_getLsbD_eq fun j hj => ?_
  rw [packLoop_cons, getLsbD_shiftIn hF, BitVec.getLsbD_setWidth]
  split
  · simp [hj]
  · next hjF => simp [packLoop, BitVec.getLsbD_of_ge (topField F b) j (Nat.le_of_not_lt hjF)]

theorem pack8_eq_packLoop (b0 b1 : Byte) : pack8 b0 b1 = packLoop 8 [b0, b1] := by
  simp [pack8, packLoop, shiftIn]

theorem pack4_eq_packLoop (b0 b1 b2 b3 : Byte) : pack4 b0 b1 b2 b3 = packLoop 4 [b0, b1, b2, b3] := rfl

theorem pack3_eq_pack4 (b0 b1 b2 b3 : Byte) : pack3 b0 b1 b2 b3 = pack4 b0 b1 b2 b3 := by
  have hturn : shiftIn3 = shiftIn4 := funext₂ shiftIn3_eq_shiftIn4
  rw [pack3, hturn, pack4]

theorem pack2_eq_packLoop (b0 b1 b2 b3 b4 b5 b6 b7 : Byte) :
    pack2 b0 b1 b2 b3 b4 b5 b6 b7 = packLoop 2 [b0, b1, b2, b3, b4, b5, b6, b7] := rfl

/-! ## The words -/

theorem pack8_eq_append (b0 b1 : Byte) : pack8 b0 b1 = b1 ++ b0 := by
  rw [pack8_eq_packLoop, packLoop_cons, packLoop_singleton (by decide), shiftIn_setWidth (by decide)]
  simp [topField]

theorem pack4_eq_append (b0 b1 b2 b3 : Byte) :
    pack4 b0 b1 b2 b3 = topField 4 b3 ++ topField 4 b2 ++ topField 4 b1 ++ topField 4 b0 := by
  have hF : 4 ≤ 8 := by decide
  simp only [pack4_eq_packLoop, packLoop_cons 4 _ (_ :: _), packLoop_singleton hF, shiftIn_setWidth hF,
    BitVec.setWidth_eq]

theorem pack3_eq_append (b0 b1 b2 b3 : Byte) :
    pack3 b0 b1 b2 b3 = topField 4 b3 ++ topField 4 b2 ++ topField 4 b1 ++ topField 4 b0 := by
  rw [pack3_eq_pack4, pack4_eq_append]

theorem pack2_eq_append (b0 b1 b2 b3 b4 b5 b6 b7 : Byte) :
    pack2 b0 b1 b2 b3 b4 b5 b6 b7 =
      topField 2 b7 ++ topField 2 b6 ++ topField 2 b5 ++ topField 2 b4 ++
        topField 2 b3 ++ topField 2 b2 ++ topField 2 b1 ++ topField 2 b0 := by
  have hF : 2 ≤ 8 := by decide
  simp only [pack2_eq_packLoop, packLoop_cons 2 _ (_ :: _), packLoop_singleton hF, shiftIn_setWidth hF,
    BitVec.setWidth_eq]

/-- Settles O20: each turn of a loop puts the field of its sample below the fields before it; `Pack3`'s mask clears a
bit its shift drops. -/
theorem packFunctionsInBits : Obligations.PackFunctionsInBits :=
  ⟨pack8_eq_append, pack4_eq_append, pack3_eq_append, pack3_eq_pack4, pack2_eq_append⟩

/-! ## The lanes of a word -/

/-- Every format packs by one loop, with its own field width. -/
theorem packWord_eq_packLoop (fmt : PixelFormat) (g : Nat → Byte) :
    packWord fmt g = packLoop (laneBits fmt) ((List.range (spw fmt)).map g) := by
  cases fmt with
  | bpp2 => exact pack2_eq_packLoop _ _ _ _ _ _ _ _
  | bpp3 => exact (pack3_eq_pack4 _ _ _ _).trans (pack4_eq_packLoop _ _ _ _)
  | bpp4 => exact pack4_eq_packLoop _ _ _ _
  | bpp8 => exact pack8_eq_packLoop _ _

/-- A turn puts the field of its sample into lane 0. -/
theorem lane_zero_shiftIn {F : Nat} (hF : F ≤ 8) (word : Word) (b : Byte) :
    (shiftIn F word b).extractLsb' (F * 0) F = topField F b := by
  refine BitVec.eq_of_getLsbD_eq fun j hj => ?_
  simp [getLsbD_shiftIn hF, hj]

/-- A turn moves every lane that stays inside the word up by one. -/
theorem lane_succ_shiftIn {F : Nat} (hF : F ≤ 8) {i : Nat} (hi : F * (i + 2) ≤ 16) (word : Word) (b : Byte) :
    (shiftIn F word b).extractLsb' (F * (i + 1)) F = word.extractLsb' (F * i) F := by
  refine BitVec.eq_of_getLsbD_eq fun j hj => ?_
  have hup : F * (i + 1) + j = F * i + j + F := by rw [Nat.mul_succ, Nat.add_right_comm]
  have hroom : F * i + j + F < 16 := by rw [Nat.mul_add] at hi; omega
  rw [BitVec.getLsbD_extractLsb', BitVec.getLsbD_extractLsb', hup, getLsbD_shiftIn hF,
    if_neg (Nat.not_lt.mpr (Nat.le_add_left F _))]
  simp [hroom]

/-- Lane `i` of a packed word is the field of sample `i`. -/
theorem lane_packLoop {F : Nat} (hF : F ≤ 8) {l : List Byte} {i : Nat} (hi : i < l.length)
    (hroom : F * (i + 1) ≤ 16) :
    (packLoop F l).extractLsb' (F * i) F = topField F l[i] := by
  induction l generalizing i with
  | nil => exact absurd hi (Nat.not_lt_zero i)
  | cons b l ih =>
    rw [packLoop_cons]
    cases i with
    | zero => exact lane_zero_shiftIn hF _ b
    | succ i =>
      rw [lane_succ_shiftIn hF hroom]
      exact ih (Nat.lt_of_succ_lt_succ hi) ((Nat.mul_le_mul_left F (Nat.le_succ _)).trans hroom)

theorem laneBits_le (fmt : PixelFormat) : laneBits fmt ≤ 8 := by
  cases fmt <;> decide

theorem laneBits_mul_spw (fmt : PixelFormat) : laneBits fmt * spw fmt = 16 := by
  cases fmt <;> rfl

theorem lane_packWord {fmt : PixelFormat} (g : Nat → Byte) {i : Nat} (hi : i < spw fmt) :
    (packWord fmt g).extractLsb' (laneBits fmt * i) (laneBits fmt) = topField (laneBits fmt) (g i) := by
  have hroom : laneBits fmt * (i + 1) ≤ 16 := laneBits_mul_spw fmt ▸ Nat.mul_le_mul_left _ hi
  rw [packWord_eq_packLoop, lane_packLoop (laneBits_le fmt) (by simpa using hi) hroom]
  simp

/-- Nothing of a lane is lost when it is shifted back to the top of a sample. -/
theorem toNat_unlane (fmt : PixelFormat) (w : Word) (i : Nat) :
    (unlane fmt w i).toNat =
      (w.extractLsb' (laneBits fmt * i) (laneBits fmt)).toNat * 2 ^ (8 - laneBits fmt) := by
  have hF := laneBits_le fmt
  have hlt : (w.extractLsb' (laneBits fmt * i) (laneBits fmt)).toNat * 2 ^ (8 - laneBits fmt) < 2 ^ 8 := by
    calc _ < 2 ^ laneBits fmt * 2 ^ (8 - laneBits fmt) :=
          Nat.mul_lt_mul_of_pos_right (BitVec.isLt _) (Nat.two_pow_pos _)
      _ = 2 ^ 8 := by rw [← Nat.pow_add, Nat.add_sub_cancel' hF]
  rw [unlane, BitVec.toNat_shiftLeft, BitVec.toNat_setWidth_of_le hF, Nat.shiftLeft_eq, Nat.mod_eq_of_lt hlt]

/-- Settles O21: the lane is the top field, a quotient; the decoded value is the quotient times its divisor; what is
missing is the remainder. -/
theorem laneLaw : Obligations.LaneLaw := by
  refine ⟨⟨rfl, rfl, rfl, rfl⟩, fun fmt w i _ => toNat_unlane fmt w i, fun fmt g i hi => ?_⟩
  have hlane : ((packWord fmt g).extractLsb' (laneBits fmt * i) (laneBits fmt)).toNat =
      (g i).toNat / 2 ^ (8 - laneBits fmt) := by rw [lane_packWord g hi, toNat_topField (laneBits_le fmt)]
  refine ⟨hlane, ?_⟩
  rw [toNat_unlane, hlane, Nat.div_add_mod']

/-! ## Groups -/

/-- Settles O22: sample `i` of the group that begins at `k * SPW` is sample `k * SPW + i` of the sequence. -/
theorem packSeqCutsGroups : Obligations.PackSeqCutsGroups := by
  refine ⟨fun g => ⟨rfl, rfl, rfl, rfl⟩, fun fmt l h => ⟨_, packSeq_of_dvd h, by simp, fun k hk => ?_⟩,
    fun fmt l h => packSeq_undefined h⟩
  rw [List.getElem_map, List.getElem_range]
  refine packWord_congr fun i _ => ?_
  simp only [List.getD_eq_getElem?_getD, List.getElem?_drop]

/-! ## The PACK commands -/

theorem packInto_of_eq {v w : Word} (h : v = w) (s : State) : packInto v s = .next { s with pw := w, err := 0 } := by
  rw [h, packInto_eq]

/-- Settles O23: the words are the encoder's; each command puts the word of its function into `PW`. -/
theorem packCommandResults : Obligations.PackCommandResults :=
  ⟨⟨decode_encode .pack8, decode_encode .pack4, decode_encode .pack3, decode_encode .pack2⟩, fun s =>
    ⟨packInto_of_eq (pack8_eq_append _ _) s, packInto_of_eq (pack4_eq_append _ _ _ _) s,
      packInto_of_eq (pack3_eq_append _ _ _ _) s, packInto_of_eq (pack2_eq_append _ _ _ _ _ _ _ _) s⟩⟩

end Sys2Proof.Machine
end

section
/-! The region functions (R75 to R81): the claims about their cells, boxes, rectangles and crops. -/

namespace Sys2Proof.Machine

/-! ## Cells -/

theorem absDiff_comm (a b : Byte) : absDiff a b = absDiff b a := by
  rw [absDiff, absDiff, ← Int.natAbs_neg, neg_sub]

theorem absDiffGrid_comm (p : Params) (A B : Memory) : absDiffGrid p A B = absDiffGrid p B A :=
  congrArg (Memory.tabulate p.size) (funext fun _ => absDiff_comm _ _)

/-- A capped sum does not fall below its first term, which is a byte itself. -/
theorem toNat_le_satAdd (a b : Byte) : a.toNat ≤ (satAdd a b).toNat := by
  rw [toNat_satAdd]
  exact le_min (Nat.le_of_lt_succ a.isLt) (Nat.le_add_right _ _)

/-- Settles O24: cell by cell, AbsDiff is the byte operation. -/
theorem absDiffOverIntegers : Obligations.AbsDiffOverIntegers := by
  intro p A B x y hx hy
  rw [at_absDiffGrid hx hy]
  exact ⟨by rw [toNat_absDiff, Int.natCast_natAbs], absDiff_eq_zero, absDiffGrid_comm p A B⟩

/-- Settles O25: cell by cell, SatAdd is the byte operation. -/
theorem satAddCaps : Obligations.SatAddCaps := by
  intro p A B x y hx hy
  rw [at_satAddGrid hx hy]
  exact ⟨toNat_satAdd _ _, toNat_le_satAdd _ _, satAdd_eq_zero⟩

/-! ## Boxes -/

/-- Settles O26: the columns and the rows that hold a non-zero cell are the two lists whose ends the box takes. -/
theorem boundingBoxIsExact : Obligations.BoundingBoxIsExact := by
  refine fun p M => ⟨bbox_eq_none, fun b hb => ?_⟩
  obtain ⟨hminX, hmaxX, hminY, hmaxY, hX, hY, hcols, hrows⟩ := bbox_eq_some hb
  refine ⟨⟨mem_dirtyColumns.mp hminX, fun x hx => (hcols x (mem_dirtyColumns.mpr hx)).1⟩,
    ⟨b.maxX - 1, by omega, mem_dirtyColumns.mp hmaxX, fun x hx => ?_⟩,
    ⟨mem_dirtyRows.mp hminY, fun y hy => (hrows y (mem_dirtyRows.mpr hy)).1⟩,
    ⟨b.maxY - 1, by omega, mem_dirtyRows.mp hmaxY, fun y hy => ?_⟩, bbox_bounds hb⟩
  · exact Nat.le_sub_one_of_lt (hcols x (mem_dirtyColumns.mpr hx)).2
  · exact Nat.le_sub_one_of_lt (hrows y (mem_dirtyRows.mpr hy)).2

/-- `roundDown` is the greatest multiple of 4 below. -/
theorem le_roundDown {c n : Nat} (hc : c % 4 = 0) (h : c ≤ n) : c ≤ roundDown n := by
  have := roundDown_spec n
  omega

/-- `roundUp` is the least multiple of 4 above. -/
theorem roundUp_le {c n : Nat} (hc : c % 4 = 0) (h : n ≤ c) : roundUp n ≤ c := by
  have := roundUp_spec n
  omega

/-- Settles O27: each bound is rounded to the nearest multiple of 4, and the frame's own bounds are such multiples. -/
theorem roundedBoxIsSmallest : Obligations.RoundedBoxIsSmallest := by
  refine ⟨fun b => ?_, fun p b hp hX hY => ⟨roundUp_le hp.1.2.2 hX, roundUp_le hp.2.2.2 hY⟩⟩
  obtain ⟨hminX, hminX', -⟩ := roundDown_spec b.minX
  obtain ⟨hminY, hminY', -⟩ := roundDown_spec b.minY
  obtain ⟨hmaxX, hmaxX', -⟩ := roundUp_spec b.maxX
  obtain ⟨hmaxY, hmaxY', -⟩ := roundUp_spec b.maxY
  exact ⟨⟨hminX, hminY, hmaxX, hmaxY⟩, ⟨hminX', hminY', hmaxX', hmaxY'⟩,
    fun c cx cy cX cY hx hy hX hY => ⟨le_roundDown cx hx, le_roundDown cy hy, roundUp_le cX hX, roundUp_le cY hY⟩⟩

/-! ## Rectangles and crops -/

/-- Nothing of a box below 65536 is lost in the 16 bits of its rectangle (R79). -/
theorem toNat_rectOf {b : Box} (hx : b.minX ≤ b.maxX) (hy : b.minY ≤ b.maxY) (hX : b.maxX < 65536)
    (hY : b.maxY < 65536) :
    (rectOf b).x.toNat = b.minX ∧ (rectOf b).y.toNat = b.minY ∧
    (rectOf b).w.toNat = b.maxX - b.minX ∧ (rectOf b).h.toNat = b.maxY - b.minY := by
  simp only [rectOf, BitVec.toNat_ofNat]
  omega

/-- Settles O28: a rounded box of a legal frame ends by 65532, so its rectangle holds its numbers. -/
theorem rectOfRoundedBox : Obligations.RectOfRoundedBox := by
  refine ⟨fun b => toNat_rectOf, fun p b hp hx hX hy hY => ?_, fun p => rfl⟩
  obtain ⟨-, -, -, -, haligned, hframe, hw, hh⟩ := rectOf_roundBox hp ⟨hx, hX⟩ ⟨hy, hY⟩
  have hdownX : roundDown b.minX ≤ b.minX := (roundDown_spec b.minX).2.1
  have hdownY : roundDown b.minY ≤ b.minY := (roundDown_spec b.minY).2.1
  have hupX : b.maxX ≤ roundUp b.maxX := (roundUp_spec b.maxX).2.1
  have hupY : b.maxY ≤ roundUp b.maxY := (roundUp_spec b.maxY).2.1
  have hW : roundUp b.maxX ≤ 65532 := (roundUp_le hp.1.2.2 hX).trans hp.1.2.1
  have hH : roundUp b.maxY ≤ 65532 := (roundUp_le hp.2.2.2 hY).trans hp.2.2.1
  obtain ⟨ex, ey, ew, eh⟩ := toNat_rectOf (b := roundBox b) (by simp only [roundBox]; omega)
    (by simp only [roundBox]; omega) (by simp only [roundBox]; omega) (by simp only [roundBox]; omega)
  exact ⟨ex, ey, ew, eh, haligned, hw, hh, hframe.columns, hframe.rows⟩

/-- Every address is that of the sample in its column and row (R31). -/
theorem Memory.read_eq_at (m : Memory) (W a : Nat) : m.read a = m.at W (a % W) (a / W) := by
  rw [Memory.at, Nat.div_add_mod']

theorem getElem?_crop {p : Params} {F : Memory} {r : Rect} {k : Nat} (hk : k < r.w.toNat * r.h.toNat) :
    (crop p F r)[k]? = some (rectSample p F r k) := by
  rw [crop_eq_map, List.getElem?_map, List.getElem?_range hk]
  rfl

/-- Settles O29: a crop lists its samples by their row-major position, and the whole frame's is the `FBS` address. -/
theorem cropIsRowMajor : Obligations.CropIsRowMajor := by
  refine ⟨fun p F r => ⟨length_crop p F r, fun k hk => getElem?_crop hk⟩, fun p F k hk => ?_⟩
  have hsize : k < p.size := hk
  have hread : (crop p F (fullRect p))[k]? = some (F.read k) := by
    rw [crop_fullRect, List.getElem?_map, List.getElem?_range hsize]
    rfl
  exact ⟨hread.trans (congrArg some (F.read_eq_at p.W.toNat k)), hread⟩

/-! ## The threshold -/

theorem bin_of_le {v : Byte} (h : 0x80 ≤ v.toNat) : bin v = 0xFF := if_pos h

theorem bin_of_lt {v : Byte} (h : v.toNat < 0x80) : bin v = 0x00 := if_neg (Nat.not_le_of_lt h)

/-- The top bit of a sample is what the threshold tests. -/
theorem getLsbD_seven (v : Byte) : v.getLsbD 7 = decide (0x80 ≤ v.toNat) :=
  (BitVec.msb_eq_getLsbD_last v).symm.trans (BitVec.msb_eq_decide v)

/-- Settles O30: on either side of 0x80 the result is one constant byte. -/
theorem binThreshold : Obligations.BinThreshold := by
  refine fun v => ⟨bin_of_le, bin_of_lt, ?_⟩
  rw [getLsbD_seven]
  obtain h | h := Nat.lt_or_ge v.toNat 0x80
  · rw [bin_of_lt h, decide_eq_false (Nat.not_le_of_lt h)]
    exact ⟨by decide, by decide⟩
  · rw [bin_of_le h, decide_eq_true h]
    exact ⟨by decide, by decide⟩

end Sys2Proof.Machine
end

section
/-! What stops (R4, R69, R96): a command, a write and a step of a legal block each answer a next state. -/

namespace Sys2Proof.Machine

variable {s : State}

theorem exec_next (hp : s.params.wf) (i : Instr) : ∃ t, exec i s = .next t := by
  obtain ⟨t, ht, -⟩ := exec_cases hp i
  exact ⟨t, ht⟩

theorem issue_next (hp : s.params.wf) (w : Word) : ∃ t, issue w s = .next t := by
  cases hd : decode w with
  | command i =>
    obtain ⟨u, hu⟩ := exec_next hp i
    exact ⟨completeIssue u, by simp only [issue, hd, hu]⟩
  | reserved e => exact ⟨completeIssue (raiseErr .illegalCmd s), by simp only [issue, hd]⟩

theorem hostWrite_next (hp : s.params.wf) (sp : Space) (a : Addr) (width : Nat) (v : Word) :
    ∃ t, hostWrite sp a width v s = .next t := by
  by_cases hwd : width = sp.accessWidth
  · subst hwd
    cases sp with
    | reg =>
      by_cases ha : a = 0x00
      · subst ha
        exact issue_next hp v
      · exact ⟨regWrite a v s, if_neg ha⟩
    | fbs => exact ⟨fbWrite a (v.setWidth 8) s, rfl⟩
  · exact ⟨_, hostWrite_of_width_ne hwd a v s⟩

/-- A step of a legal block that is not asked to reset to illegal parameters answers a next state. -/
theorem step_next (hp : s.params.wf) (hreset : ∀ p l rest, s.host = .reset p l :: rest → p.wf) :
    ∃ t, step s = .next t := by
  by_cases hr : ∃ p l rest, s.host = .reset p l :: rest
  · obtain ⟨p, l, rest, hh⟩ := hr
    exact ⟨resetBlock p l { s with host := rest }, (step_reset hp hh).trans (if_pos (hreset p l rest hh))⟩
  have hr : s.NoReset := fun p l rest hh => hr ⟨p, l, rest, hh⟩
  obtain hw | ⟨q, hw⟩ := Option.eq_none_or_eq_some s.waiting
  · match hh : s.host with
    | [] => exact ⟨s, idleBlockWaits s hp hw hh⟩
    | .read sp a width :: rest => exact ⟨_, step_read hp hw hh⟩
    | .write sp a width v :: rest =>
      obtain ⟨t, ht⟩ := hostWrite_next (s := { s with host := rest }) hp sp a width v
      exact ⟨t, (step_write hp hw hh).trans ht⟩
    | .reset p l :: rest => exact absurd hh (hr p l rest)
  · exact ⟨_, step_waiting hp hw hr⟩

/-- Every step answers a next state or is refused for illegal parameters: the block's, or those a reset would sample. -/
theorem step_next_or_refused (s : State) :
    (∃ t, step s = .next t) ∨ (step s = .refused .illFormedParams ∧
      (¬ s.params.wf ∨ ∃ p l rest, s.host = .reset p l :: rest ∧ ¬ p.wf)) := by
  by_cases hp : s.params.wf
  · by_cases hbad : ∃ p l rest, s.host = .reset p l :: rest ∧ ¬ p.wf
    · obtain ⟨p, l, rest, hh, hill⟩ := hbad
      exact .inr ⟨(step_reset hp hh).trans (resetInput_of_not_wf hill l _), .inr ⟨p, l, rest, hh, hill⟩⟩
    · refine .inl (step_next hp fun p l rest hh => ?_)
      by_contra hill
      exact hbad ⟨p, l, rest, hh, hill⟩
  · exact .inr ⟨step_of_not_wf hp, .inl hp⟩

/-- Settles O17: a step has two kinds of outcome, a next state and the refusal of illegal parameters. -/
theorem nothingElseStops : Obligations.NothingElseStops := by
  refine ⟨fun i s hp => exec_next hp i, fun s f hf => ?_, fun s r hr => ?_⟩
  · obtain ⟨t, h⟩ | ⟨h, -⟩ := step_next_or_refused s
    · cases h.symm.trans hf
    · cases h.symm.trans hf
  · obtain ⟨t, h⟩ | ⟨h, hill⟩ := step_next_or_refused s
    · cases h.symm.trans hr
    · cases h.symm.trans hr
      exact ⟨rfl, hill⟩

end Sys2Proof.Machine
end

section
/-! What later proofs use of updates: the three ways of a transmission and what it does to the tracker state, and one
lemma for each tracker command. -/

namespace Sys2Proof.Machine

/-! ## Transmissions -/

theorem code_nakError (t : Token) : (nakError t).code = if t = .waitRdy then 2 else 3 := by
  cases t <;> rfl

theorem Err.code_ne_zero (e : Err) : e.code ≠ 0 := by
  cases e <;> decide

/-- A transmission goes in the three ways of `Transmits`. -/
theorem transmits_transmit (s : State) (ts : List Token) (c : Commit) : Transmits s ts c (.next (transmit ts c s)) := by
  refine ⟨fun ha => congrArg _ (transmit_acks ha), fun k hk ha hn => ?_,
    fun k hk ha hn => congrArg _ (transmit_waits hk ha hn)⟩
  rw [transmit_nak hk ha hn, raiseErr, code_nakError]

/-- What a transmission does to the tracker state: it commits, with ERR 0 and no command running, or it ends otherwise
and leaves the tracker state alone (R95). -/
theorem transmit_tracker (ts : List Token) (c : Commit) (s : State) :
    ((transmit ts c s).waiting = none ∧ (transmit ts c s).err = 0 ∧ (transmit ts c s).ga = c.ga ∧
      (transmit ts c s).pf = some c.pf ∧ (transmit ts c s).noop = c.noop) ∨
    (¬ ((transmit ts c s).waiting = none ∧ (transmit ts c s).err = 0) ∧ (transmit ts c s).ga = s.ga ∧
      (transmit ts c s).pf = s.pf ∧ (transmit ts c s).noop = s.noop) := by
  obtain ⟨k, h | ⟨l, u, -, h⟩ | ⟨l, u, us, -, h⟩⟩ := transmit_cases ts c s <;> rw [h]
  · exact .inl ⟨rfl, rfl, rfl, rfl, rfl⟩
  · exact .inr ⟨fun hend => (nakError u).code_ne_zero hend.2, rfl, rfl, rfl⟩
  · exact .inr ⟨fun hend => absurd hend.1 (Option.some_ne_none _), rfl, rfl, rfl⟩

/-- A transmission that ended with ERR 0 has committed. -/
theorem transmit_committed {ts : List Token} {c : Commit} {s : State} (hw : (transmit ts c s).waiting = none)
    (he : (transmit ts c s).err = 0) :
    (transmit ts c s).ga = c.ga ∧ (transmit ts c s).pf = some c.pf ∧ (transmit ts c s).noop = c.noop := by
  obtain ⟨-, -, h⟩ | ⟨hnot, -⟩ := transmit_tracker ts c s
  · exact h
  · exact absurd ⟨hw, he⟩ hnot

/-- A transmission that has not committed leaves the tracker state alone. -/
theorem transmit_not_committed {ts : List Token} {c : Commit} {s : State}
    (hnot : ¬ ((transmit ts c s).waiting = none ∧ (transmit ts c s).err = 0)) :
    (transmit ts c s).ga = s.ga ∧ (transmit ts c s).pf = s.pf ∧ (transmit ts c s).noop = s.noop := by
  obtain ⟨hw, he, -⟩ | ⟨-, h⟩ := transmit_tracker ts c s
  · exact absurd ⟨hw, he⟩ hnot
  · exact h

theorem length_sendTokens (fmt : PixelFormat) (load : Token) (n : Nat) (f : Nat → Byte) (r : Rect) (mode : Byte) :
    (sendTokens fmt load n f r mode).length = 4 + n / spw fmt := by
  simp only [sendTokens, List.length_append, List.length_map, List.length_range, List.length_cons, List.length_nil]
  omega

/-! ## The tracker commands -/

section

variable {s : State} {mode : Byte}

theorem fullGa_of_ne_du (h : mode ≠ 1) : fullGa mode s = .zero := if_neg h

theorem fullGa_du {m : Memory} (hpf : s.pf = some m) :
    fullGa 1 s = satAddGrid s.params s.ga (absDiffGrid s.params m s.fb) := by
  simp [fullGa, Config.modeDu, hpf]

/-- The first DU update finds no difference (R85). -/
theorem fullGa_du_bootstrap (hpf : s.pf = none) : fullGa 1 s = s.ga := by
  simp [fullGa, Config.modeDu, hpf]

theorem partialGa_eq_fullGa {m : Memory} (hpf : s.pf = some m) : partialGa mode m s = fullGa mode s := by
  simp only [partialGa, fullGa, hpf]

theorem exec_wfull (hp : s.params.wf) (mode : Byte) :
    exec (.wfull mode) s = .next (transmit (fullTokens s.params s.fb mode)
      { ga := fullGa mode s, pf := s.fb, noop := false } s) :=
  fullUpdate_eq hp mode

/-- The bootstrap (R87). -/
theorem exec_wpart_bootstrap (hpf : s.pf = none) : exec (.wpart mode) s = exec (.wfull mode) s := by
  simp only [exec, execWPart, execWFull, hpf]

theorem exec_wpart_partial {m : Memory} (hpf : s.pf = some m) : exec (.wpart mode) s = partialUpdate mode m s := by
  simp only [exec, execWPart, hpf]

theorem exec_clear (hp : s.params.wf) :
    exec .clear s = .next (transmit (fullTokens s.params (white s.params) 0)
      { ga := .zero, pf := white s.params, noop := false } { s with fb := white s.params }) :=
  fullUpdate_eq (s := { s with fb := white s.params }) hp Config.modeInit

/-- Every update of a mode, full or partial, with tokens or without, commits one accumulator and FrameBuffer. -/
theorem exec_update {i : Instr} (hp : s.params.wf) (hi : i = .wpart mode ∨ i = .wfull mode) :
    ∃ ts noop, exec i s = .next (transmit ts { ga := fullGa mode s, pf := s.fb, noop := noop } s) := by
  obtain rfl | rfl := hi
  · obtain hpf | ⟨m, hpf⟩ := Option.eq_none_or_eq_some s.pf
    · exact ⟨_, _, (exec_wpart_bootstrap hpf).trans (exec_wfull hp mode)⟩
    · rw [exec_wpart_partial hpf, ← partialGa_eq_fullGa hpf]
      cases hb : partialBox mode m s with
      | none => exact ⟨[], true, partialUpdate_none hb⟩
      | some b => exact ⟨_, false, partialUpdate_some hp hb⟩
  · exact ⟨_, _, exec_wfull hp mode⟩

end

end Sys2Proof.Machine
end

section
/-! Updates (R83 to R99): the claims about one update, about two in a row and about every step. -/

namespace Sys2Proof.Machine

/-! ## Full updates -/

/-- Settles O31: a full update is the transmission of the frame's tokens. -/
theorem fullUpdateOutcomes : Obligations.FullUpdateOutcomes := by
  refine fun s mode hp => ⟨?_, ?_, length_sendTokens _ _ _ _ _ _⟩
  · have hword : (BitVec.ofNat 16 (0x2000 + mode.toNat) : Word) = encode (.wfull mode) := by
      rw [← assemblerWords.2.2.2.2.1 mode, BitVec.ofNat_toNat, BitVec.setWidth_eq]
    rw [hword, decode_encode]
  · rw [exec_wfull hp mode]
    exact transmits_transmit s _ _

/-- Settles O34: the bootstrap is the full update, whose commit has NOOP 0 and whose failure keeps PreviousFrame. -/
theorem bootstrapIsFullUpdate : Obligations.BootstrapIsFullUpdate := by
  refine fun s mode hp hpf => ⟨exec_wpart_bootstrap hpf, _, (exec_wpart_bootstrap hpf).trans (exec_wfull hp mode),
    fun hw he => ?_, fun _ he => ?_⟩
  · obtain ⟨-, hpf', hnoop⟩ := transmit_committed hw he
    exact ⟨hpf', hnoop⟩
  · obtain ⟨-, hpf', -⟩ := transmit_not_committed fun hend => he hend.2
    exact hpf'.trans hpf

/-- Sample `i` of group `k` lies below `n` when the group does. -/
theorem group_sample_lt {n m k i : Nat} (hk : k < n / m) (hi : i < m) : k * m + i < n :=
  calc k * m + i < k * m + m := Nat.add_lt_add_left hi _
    _ = (k + 1) * m := (Nat.succ_mul k m).symm
    _ ≤ n := Nat.mul_le_of_le_div m (k + 1) n hk

theorem read_white {p : Params} {a : Nat} (ha : a < p.size) : (white p).read a = 0xFF := by
  rw [white, Memory.read_tabulate, if_pos ha]

/-- A group of samples 0xFF is the word 0xFFFF in every format (R92). -/
theorem packWord_white (fmt : PixelFormat) : packWord fmt (fun _ => 0xFF) = 0xFFFF := by
  cases fmt <;> decide

theorem fullTokens_white (p : Params) (mode : Byte) :
    fullTokens p (white p) mode =
      [.waitRdy, .loadFull] ++ List.replicate (p.size / spw p.updFmt) (.pixWord 0xFFFF) ++
        [.loadEnd, .display { x := 0, y := 0, w := p.W, h := p.H } mode] := by
  have hwords : (List.range (p.size / spw p.updFmt)).map
      (fun k => Token.pixWord (packWord p.updFmt fun i => (white p).read (k * spw p.updFmt + i))) =
      List.replicate (p.size / spw p.updFmt) (.pixWord 0xFFFF) := by
    refine List.eq_replicate_iff.mpr ⟨by simp, fun t ht => ?_⟩
    obtain ⟨k, hk, rfl⟩ := List.mem_map.mp ht
    rw [packWord_congr fun i hi => read_white (group_sample_lt (List.mem_range.mp hk) hi), packWord_white]
  rw [fullTokens, sendTokens, hwords]

/-- Settles O35: CLEAR is the full update of the white frame. -/
theorem clearOutcomes : Obligations.ClearOutcomes := by
  refine ⟨decode_encode .clear, fun s hp => ⟨white s.params, white_ofFrame _, fun a ha => read_white ha, ?_⟩⟩
  rw [exec_clear hp, fullTokens_white]
  exact transmits_transmit _ _ _

/-! ## Partial updates -/

section

variable {s : State} {mode : Byte} {m : Memory}

/-- The raw box holds every dirty sample, and on each of its four sides there is one (R77, R88, R89). -/
theorem partialBox_eq_some {b : Box} (hb : partialBox mode m s = some b) :
    (∀ x y, Dirty s m mode x y → (b.minX ≤ x ∧ x < b.maxX) ∧ (b.minY ≤ y ∧ y < b.maxY)) ∧
    (∃ y, Dirty s m mode b.minX y) ∧ (∃ y, Dirty s m mode (b.maxX - 1) y) ∧
    (∃ x, Dirty s m mode x b.minY) ∧ (∃ x, Dirty s m mode x (b.maxY - 1)) := by
  obtain ⟨M, hM, hdirty⟩ := partialBox_eq_bbox mode m s
  obtain ⟨hminX, hmaxX, hminY, hmaxY, -, -, hcols, hrows⟩ := bbox_eq_some (hM.symm.trans hb)
  have column : ∀ {x}, x ∈ dirtyColumns s.params M → ∃ y, Dirty s m mode x y := fun hx => by
    obtain ⟨hx, y, hy, hne⟩ := mem_dirtyColumns.mp hx
    exact ⟨y, (hdirty _ y hx hy).mp hne⟩
  have row : ∀ {y}, y ∈ dirtyRows s.params M → ∃ x, Dirty s m mode x y := fun hy => by
    obtain ⟨hy, x, hx, hne⟩ := mem_dirtyRows.mp hy
    exact ⟨x, (hdirty x _ hx hy).mp hne⟩
  refine ⟨fun x y hxy => ?_, column hminX, column hmaxX, row hminY, row hmaxY⟩
  have ⟨hx, hy, _⟩ := hxy
  have hne := (hdirty x y hx hy).mpr hxy
  exact ⟨hcols x (mem_dirtyColumns.mpr ⟨hx, y, hy, hne⟩), hrows y (mem_dirtyRows.mpr ⟨hy, x, hx, hne⟩)⟩

/-- Settles O32: the rectangle is the rounded raw box, whose sides the dirty samples on them force upon every other
aligned rectangle. -/
theorem partialUpdateSendsSmallestBox : Obligations.PartialUpdateSendsSmallestBox := by
  intro s mode m hp hpf ⟨x0, y0, hdirty⟩
  obtain ⟨b, hb⟩ : ∃ b, partialBox mode m s = some b :=
    Option.ne_none_iff_exists'.mp fun hnone => partialBox_none_iff.mp hnone x0 y0 hdirty
  obtain ⟨hX, hY⟩ := partialBox_bounds hb
  obtain ⟨hinside, ⟨yl, hl⟩, ⟨yr, hr⟩, ⟨xt, ht⟩, ⟨xb, hbot⟩⟩ := partialBox_eq_some hb
  obtain ⟨ex, ey, ew, eh, haligned, hframe, -⟩ := rectOf_roundBox hp hX hY
  refine ⟨rectOf (roundBox b), haligned, hframe, fun x y hxy => ?_, fun r' ha' hcov x y hxy => ?_, ?_,
    length_sendTokens _ _ _ _ _ _⟩
  · obtain ⟨hx, hy⟩ := hinside x y hxy
    have := roundDown_spec b.minX
    have := roundDown_spec b.minY
    have := roundUp_spec b.maxX
    have := roundUp_spec b.maxY
    rw [Rect.Covers, ew, eh, ex, ey]
    omega
  · obtain ⟨ax, ay, aw, ah⟩ := ha'
    have hleft : r'.x.toNat ≤ roundDown b.minX := le_roundDown ax (hcov _ _ hl).1.1
    have htop : r'.y.toNat ≤ roundDown b.minY := le_roundDown ay (hcov _ _ ht).2.1
    have hright : roundUp b.maxX ≤ r'.x.toNat + r'.w.toNat :=
      roundUp_le (by omega) (Nat.le_of_pred_lt (hcov _ _ hr).1.2)
    have hbottom : roundUp b.maxY ≤ r'.y.toNat + r'.h.toNat :=
      roundUp_le (by omega) (Nat.le_of_pred_lt (hcov _ _ hbot).2.2)
    rw [Rect.Covers, ew, eh, ex, ey] at hxy
    rw [Rect.Covers]
    omega
  · rw [exec_wpart_partial hpf, partialUpdate_some hp hb]
    exact transmits_transmit s _ _

/-- Grids of one frame with the same samples are equal. -/
theorem Memory.OfFrame.ext_at {m n : Memory} {p : Params} (hm : m.OfFrame p) (hn : n.OfFrame p)
    (h : ∀ x y, x < p.W.toNat → y < p.H.toNat → m.at p.W.toNat x y = n.at p.W.toNat x y) : m = n := by
  refine hm.ext hn fun a ha => ?_
  have hW : 0 < p.W.toNat := Nat.pos_of_mul_pos_right (Nat.zero_lt_of_lt ha)
  rw [m.read_eq_at p.W.toNat, n.read_eq_at p.W.toNat]
  exact h _ _ (Nat.mod_lt _ hW) (Nat.div_lt_of_lt_mul ha)

/-- A partial update with no dirty sample: PreviousFrame is FrameBuffer already and the accumulator it commits is the
one there was, so that only NOOP and ERR are written (R90, R94). -/
theorem exec_wpart_of_clean (hfb : s.fb.OfFrame s.params) (hga : s.ga.OfFrame s.params) (hm : m.OfFrame s.params)
    (hpf : s.pf = some m) (hclean : ∀ x y, ¬ Dirty s m mode x y) :
    exec (.wpart mode) s = .next { s with noop := true, err := 0, waiting := none } := by
  have hsame : m = s.fb := hm.ext_at hfb fun x y hx hy => by
    by_contra hne
    exact hclean x y ⟨hx, hy, .inl hne⟩
  have hkept : fullGa mode s = s.ga := by
    by_cases hd : mode = 1
    · rw [hd, fullGa_du hpf, hsame, absDiffGrid_self, satAddGrid_zero hga]
    · rw [fullGa_of_ne_du hd]
      refine (Memory.ofFrame_zero _).ext_at hga fun x y hx hy => ?_
      by_contra hne
      exact hclean x y ⟨hx, hy, .inr ⟨hd, Ne.symm hne⟩⟩
  rw [exec_wpart_partial hpf, partialUpdate_none (partialBox_none_iff.mpr hclean), partialGa_eq_fullGa hpf, hkept,
    commit, ← hsame, ← hpf]

/-- Settles O33: the invariant makes all grids those of the frame. -/
theorem noOpUpdateChangesNothing : Obligations.NoOpUpdateChangesNothing :=
  fun _ _ m h hpf hclean => exec_wpart_of_clean h.fb h.ga (h.pf m hpf) hpf hclean

/-! ## A partial update after a commit -/

/-- After a commit of FrameBuffer, and of `Zero` if the next mode looks at the accumulator, no sample is dirty: the next
partial update is a no-op update. -/
theorem exec_wpart_of_committed {ts : List Token} {c : Commit} (hfb : s.fb.OfFrame s.params)
    (hcga : c.ga.OfFrame s.params) (hcpf : c.pf = s.fb) (hzero : mode ≠ 1 → c.ga = .zero)
    (hw : (transmit ts c s).waiting = none) (he : (transmit ts c s).err = 0) :
    exec (.wpart mode) (transmit ts c s) = .next { transmit ts c s with noop := true } := by
  obtain ⟨hga, hpf, -⟩ := transmit_committed hw he
  obtain ⟨hparams, -, -, hfb', -⟩ := transmit_frame ts c s
  have hframe : (transmit ts c s).fb.OfFrame (transmit ts c s).params := by rwa [hfb', hparams]
  rw [exec_wpart_of_clean hframe (by rwa [hga, hparams]) hframe (by rw [hpf, hcpf, hfb']), ← he, ← hw]
  rintro x y ⟨-, -, hne | ⟨hd, hne⟩⟩
  · exact hne rfl
  · rw [hga, hzero hd] at hne
    exact hne rfl

end

/-- Settles O38: the first update commits FrameBuffer, and `Zero` if its mode is not DU. -/
theorem secondPartialIsNoOp : Obligations.SecondPartialIsNoOp := by
  intro s t mode mode' h he hw herr hmode
  obtain ⟨ts, noop, hu⟩ := exec_update (mode := mode) h.params (.inl rfl)
  cases hu.symm.trans he
  refine exec_wpart_of_committed h.fb (fullGa_ofFrame h mode) rfl (fun hd => ?_) hw herr
  obtain rfl | hdu := hmode
  · exact fullGa_of_ne_du hd
  · exact absurd hdu hd

/-- Settles O39: CLEAR commits the white frame it has put into FrameBuffer, and `Zero`. -/
theorem partialAfterClearIsNoOp : Obligations.PartialAfterClearIsNoOp := by
  intro s t mode h he hw herr
  cases (exec_clear h.params).symm.trans he
  exact exec_wpart_of_committed (white_ofFrame s.params) (Memory.ofFrame_zero _) rfl (fun _ => rfl) hw herr

/-! ## The accumulator -/

/-- In DU mode the accumulator an update commits is nowhere below the one there was (R93 item 3). -/
theorem toNat_read_le_fullGa_du {s : State} (hga : s.ga.OfFrame s.params) (a : Nat) :
    (s.ga.read a).toNat ≤ ((fullGa 1 s).read a).toNat := by
  cases hpf : s.pf with
  | none => rw [fullGa_du_bootstrap hpf]
  | some m =>
    rw [fullGa_du hpf]
    obtain ha | ha := Nat.lt_or_ge a s.params.size
    · rw [read_satAddGrid ha]
      exact toNat_le_satAdd _ _
    · rw [hga.read_outside ha]
      exact Nat.zero_le _

/-- Settles O40: the accumulator becomes the one the update commits, or stays. -/
theorem accumulatorIsMonotone : Obligations.AccumulatorIsMonotone := by
  intro s t mode i h hi he
  obtain ⟨ts, noop, hu⟩ := exec_update h.params hi
  cases hu.symm.trans he
  refine ⟨?_, fun hd hw herr a => ?_⟩
  · rintro rfl a
    obtain ⟨-, -, hga, -⟩ | ⟨-, hga, -⟩ := transmit_tracker ts { ga := fullGa 1 s, pf := s.fb, noop := noop } s
    · rw [hga]
      exact toNat_read_le_fullGa_du h.ga a
    · rw [hga]
  · obtain ⟨hga, -⟩ := transmit_committed hw herr
    rw [hga, fullGa_of_ne_du hd]
    rfl

/-! ## Modes -/

/-- An answered token with `f` done to the token. -/
def Sent.mapToken (f : Token → Token) (x : Sent) : Sent := { x with token := f x.token }

/-- A transmission that does not wait goes the same way with other tokens, as long as a NAK to them means the same. -/
theorem transmit_mapToken {f : Token → Token} (hf : ∀ u, nakError (f u) = nakError u) {ts : List Token} {c : Commit}
    {s : State} (hw : (transmit ts c s).waiting = none) :
    transmit (ts.map f) c { s with out := s.out.map (Sent.mapToken f) } =
      { transmit ts c s with out := (transmit ts c s).out.map (Sent.mapToken f) } := by
  induction ts generalizing s with
  | nil => rfl
  | cons u us ih =>
    obtain ⟨o, k, hk⟩ : ∃ o k, s.sink.poll = (o, k) := ⟨_, _, rfl⟩
    simp only [List.map_cons, transmit, hk] at hw ⊢
    rcases o with _ | _ | _
    · cases hw
    · simpa [Sent.mapToken] using ih hw
    · simp [raiseErr, hf, Sent.mapToken]

theorem nakError_withMode (m : Byte) (u : Token) : nakError (u.withMode m) = nakError u := by
  cases u <;> rfl

theorem withMode_withMode (m m' : Byte) (u : Token) : (u.withMode m).withMode m' = u.withMode m' := by
  cases u <;> rfl

theorem sendTokens_withMode (fmt : PixelFormat) (load : Token) (n : Nat) (f : Nat → Byte) (r : Rect) (m m' : Byte) :
    (sendTokens fmt load n f r m).map (Token.withMode m') = sendTokens fmt (load.withMode m') n f r m' := by
  simp [sendTokens, Function.comp_def, Token.withMode]

theorem areaTokens_withMode {m m' : Byte} (hm : m ≠ 1) (hm' : m' ≠ 1) (p : Params) (F : Memory) (r : Rect) :
    (areaTokens p F r m).map (Token.withMode m') = areaTokens p F r m' := by
  simp only [areaTokens, if_neg hm, if_neg hm', sendTokens_withMode, Token.withMode]

theorem partialBox_of_ne_du {m m' : Byte} (hm : m ≠ 1) (hm' : m' ≠ 1) (pf : Memory) (s : State) :
    partialBox m pf s = partialBox m' pf s :=
  (if_neg hm).trans (if_neg hm').symm

/-- In the modes that are not DU a command transmits one list of tokens, with the mode in the DISPLAY token, and has one
commit (R98). -/
def OneUpdateForModes (command : Byte → Instr) (s : State) : Prop :=
  ∃ (ts : List Token) (c : Commit), ∀ m : Byte, m ≠ 1 →
    exec (command m) s = .next (transmit (ts.map (Token.withMode m)) c s)

theorem exec_wfull_modes {s : State} (hp : s.params.wf) : OneUpdateForModes .wfull s := by
  refine ⟨fullTokens s.params s.fb 0, { ga := .zero, pf := s.fb, noop := false }, fun m hm => ?_⟩
  rw [exec_wfull hp, fullGa_of_ne_du hm, fullTokens, fullTokens, sendTokens_withMode]
  rfl

theorem exec_wpart_modes {s : State} (hp : s.params.wf) : OneUpdateForModes .wpart s := by
  obtain hpf | ⟨pf, hpf⟩ := Option.eq_none_or_eq_some s.pf
  · obtain ⟨ts, c, h⟩ := exec_wfull_modes hp
    exact ⟨ts, c, fun m hm => (exec_wpart_bootstrap hpf).trans (h m hm)⟩
  have h0 : (0 : Byte) ≠ 1 := by decide
  cases hb : partialBox 0 pf s with
  | none =>
    refine ⟨[], { ga := .zero, pf := s.fb, noop := true }, fun m hm => ?_⟩
    rw [exec_wpart_partial hpf, partialUpdate_none ((partialBox_of_ne_du hm h0 pf s).trans hb),
      partialGa_eq_fullGa hpf, fullGa_of_ne_du hm]
    rfl
  | some b =>
    refine ⟨areaTokens s.params s.fb (rectOf (roundBox b)) 0, { ga := .zero, pf := s.fb, noop := false },
      fun m hm => ?_⟩
    rw [exec_wpart_partial hpf, partialUpdate_some hp ((partialBox_of_ne_du hm h0 pf s).trans hb),
      partialGa_eq_fullGa hpf, fullGa_of_ne_du hm, areaTokens_withMode h0 hm]

/-- Settles O42: both modes transmit one list of tokens with their own mode in it, so the sink's answers take them the
same way. -/
theorem modeOnlyMarksDisplay : Obligations.ModeOnlyMarksDisplay := by
  intro s t m m' full hp hm hm' he hw
  obtain ⟨ts, c, h⟩ : OneUpdateForModes (fun m => if full then .wfull m else .wpart m) { s with out := [] } := by
    cases full with
    | true => exact exec_wfull_modes (s := { s with out := [] }) hp
    | false => exact exec_wpart_modes (s := { s with out := [] }) hp
  cases (h m hm).symm.trans he
  have hts : ts.map (Token.withMode m') = (ts.map (Token.withMode m)).map (Token.withMode m') := by
    simp only [List.map_map, Function.comp_def, withMode_withMode]
  rw [h m' hm', hts]
  exact congrArg _ (transmit_mapToken (nakError_withMode m') hw)

/-! ## Every step -/

/-- A transmission that changed the tracker state has committed. -/
theorem transmit_of_tracker_ne {ts : List Token} {c : Commit} {s : State}
    (hne : (transmit ts c s).ga ≠ s.ga ∨ (transmit ts c s).pf ≠ s.pf ∨ (transmit ts c s).noop ≠ s.noop) :
    (transmit ts c s).pf = some c.pf ∧ (transmit ts c s).err = 0 ∧ (transmit ts c s).waiting = none := by
  obtain ⟨hw, he, -, hpf, -⟩ | ⟨-, hga, hpf, hnoop⟩ := transmit_tracker ts c s
  · exact ⟨hpf, he, hw⟩
  · simp [hga, hpf, hnoop] at hne

/-- A command that changed the tracker state has committed the FrameBuffer it worked on. -/
theorem exec_of_tracker_ne {i : Instr} {s t : State} (hp : s.params.wf) (he : exec i s = .next t)
    (hne : t.ga ≠ s.ga ∨ t.pf ≠ s.pf ∨ t.noop ≠ s.noop) :
    ¬ IsPack i ∧ t.pf = some t.fb ∧ t.err = 0 ∧ t.waiting = none := by
  obtain ⟨u, hu, hcases⟩ := exec_cases hp i
  cases hu.symm.trans he
  obtain ⟨-, w, rfl⟩ | ⟨hi, F, c, -, hpf, -, ⟨-, ts, -, -, -, -, rfl⟩ | ⟨-, rfl, -, rfl⟩⟩ := hcases
  · simp at hne
  · obtain ⟨-, -, -, hfb, -⟩ := transmit_frame ts c { s with fb := F }
    rw [hfb]
    subst hpf
    exact ⟨hi, transmit_of_tracker_ne hne⟩
  · exact ⟨hi, congrArg some hpf, rfl, rfl⟩

/-- Settles O46: only a command and a waiting command touch the tracker state; the invariant says what the latter
commits. -/
theorem trackerChangesOnlyAtCommit : Obligations.TrackerChangesOnlyAtCommit := by
  intro s t h hstep hr hne
  obtain ⟨hp, hturn⟩ := turn_of_step hstep hr
  cases hturn with
  | idle _ _ ht => simp [ht] at hne
  | wait q hw ht =>
    obtain ⟨-, -, -, hfb, -⟩ := transmit_frame (q.token :: q.later) q.commit s
    subst ht
    simp only [completeIssue_ga, completeIssue_pf, completeIssue_noop, completeIssue_fb, completeIssue_err,
      completeIssue_waiting, resume] at hne ⊢
    rw [hfb, ← (h.waiting q hw).pf]
    exact ⟨.inl (by simp [hw]), transmit_of_tracker_ne hne⟩
  | answer i rest r _ _ _ ht => simp [ht] at hne
  | stage a v j rest _ _ _ ht => simp [ht] at hne
  | frame a v rest _ _ _ ht => simp [ht] at hne
  | command w rest i u hw hh hd he ht =>
    subst ht
    simp only [completeIssue_ga, completeIssue_pf, completeIssue_noop, completeIssue_fb, completeIssue_err,
      completeIssue_waiting] at hne ⊢
    obtain ⟨hi, hend⟩ := exec_of_tracker_ne (s := { s with host := rest }) hp he hne
    exact ⟨.inr ⟨hw, w, rest, i, hh, hd, hi⟩, hend⟩
  | illegal w rest e _ _ _ ht => simp [ht] at hne

end Sys2Proof.Machine
end

section
/-! The host's accesses and command issues (R101 to R107): what the host is answered, and what each access of the right
width does. -/

namespace Sys2Proof.Machine

/-! ## Bus errors and commands -/

theorem completeIssue_eq_ite (s : State) :
    completeIssue s = if s.waiting = none then reply .done s else s := by
  by_cases hw : s.waiting = none
  · rw [if_pos hw, completeIssue_of_ended hw]
  · obtain ⟨q, hq⟩ := Option.ne_none_iff_exists'.mp hw
    rw [if_neg hw, completeIssue_of_waiting hq]

/-- A write to CMD completes or waits, but its answer is no bus error (R105). -/
theorem completeIssue_replies_ne_busError (s : State) :
    (completeIssue s).replies ≠ s.replies ++ [.busError] := by
  rw [completeIssue_eq_ite]
  split <;> simp

theorem exec_replies {i : Instr} {s t : State} (hp : s.params.wf) (he : exec i s = .next t) :
    t.replies = s.replies := by
  by_cases hi : IsPack i
  · obtain ⟨w, rfl⟩ := exec_of_isPack hi he
    rfl
  · obtain ⟨F, ts, c, -, rfl⟩ := exec_of_not_isPack hi hp he
    obtain ⟨-, -, -, -, -, hreplies⟩ := transmit_frame ts c { s with fb := F }
    exact hreplies

/-- Settles O10: of all turns only the one that changes nothing but the host's lists answers anything but a
completion, and a reset answers nothing. -/
theorem busErrorChangesNothing : Obligations.BusErrorChangesNothing := by
  intro s t hstep herr
  obtain ⟨hp, ⟨p, l, rest, -, -, rfl⟩ | ⟨-, hturn⟩⟩ := step_cases hstep
  · simp at herr
  cases hturn with
  | idle _ _ ht => simp [ht] at herr
  | wait q _ ht =>
    obtain ⟨-, -, -, -, -, hreplies⟩ := transmit_frame (q.token :: q.later) q.commit s
    rw [ht, ← hreplies] at herr
    exact absurd herr (completeIssue_replies_ne_busError _)
  | answer i rest r _ hh _ ht =>
    have hr : r = .busError := by simpa [ht] using herr
    exact ⟨i, rest, hh, by rw [ht, hr]; rfl⟩
  | stage a v j rest _ _ _ ht => simp [ht] at herr
  | frame a v rest _ _ _ ht => simp [ht] at herr
  | command w rest i u _ _ _ he ht =>
    have hreplies : u.replies = s.replies := exec_replies (s := { s with host := rest }) hp he
    rw [ht, ← hreplies] at herr
    exact absurd herr (completeIssue_replies_ne_busError u)
  | illegal w rest e _ _ _ ht => simp [ht] at herr

/-- Settles O19: the waiting token and those after it are one transmission, and the write completes when it has ended. -/
theorem waitingCommandGoesOn : Obligations.WaitingCommandGoesOn := by
  intro s q hp hw hr
  refine ⟨resume q s, transmits_transmit s (q.token :: q.later) q.commit, ?_⟩
  rw [step_waiting hp hw hr, completeIssue_eq_ite]
  rfl

/-- The write of a command's word to CMD runs the command, and is completed if the command has ended (R105, R107). -/
theorem step_command {s t : State} {w : Word} {i : Instr} {rest : List HostInput} (hp : s.params.wf)
    (hw : s.waiting = none) (hh : s.host = .write .reg 0x00 16 w :: rest) (hd : decode w = .command i)
    (he : exec i { s with host := rest } = .next t) : step s = .next (completeIssue t) :=
  calc step s = issue w { s with host := rest } := step_write hp hw hh
    _ = .next (completeIssue t) := by simp only [issue, hd, he]

/-- A command's word placed by `withFetchWord` is the word itself: nothing of it is cut off. -/
theorem withFetchWord_encode (s : State) (i : Instr) :
    s.withFetchWord 16 (encode i).toNat = placeCommand (encode i) s := by
  rw [State.withFetchWord, Nat.mod_eq_of_lt (encode i).isLt, BitVec.ofNat_toNat, BitVec.setWidth_eq]

/-- Settles O11: a write to CMD of a legal word is the issue of its command, and a placed command is such a write. -/
theorem stepRunsCommand : Obligations.StepRunsCommand := by
  constructor
  · intro s w i rest hp hw hh hd
    obtain ⟨t, ht⟩ := exec_next (s := { s with host := rest }) hp i
    rw [step_command hp hw hh hd ht, ht, completeIssue_eq_ite]
    rfl
  · intro s i hp
    obtain ⟨t, ht⟩ := exec_next (s := { s with waiting := none }) hp i
    rw [withFetchWord_encode, step_command (s := placeCommand (encode i) s) hp rfl rfl (decode_encode i) ht, ht,
      completeIssue_eq_ite]
    rfl

/-! ## Registers -/

/-- A register read answers the register's value, or a bus error where there is none to read (R101). -/
theorem regRead_eq_reply (a : Addr) (s : State) :
    regRead a s = reply (((regAt a).bind (regValue · s)).elim .busError .word) s := by
  rw [regRead]
  cases (regAt a).bind (regValue · s) <;> rfl

/-- STATUS as a number (R15): `ERR` stands in bits 7:4, `NOOP` in bit 1, `PFV` in bit 0. -/
theorem statusWord_eq_ofNat (s : State) :
    statusWord s = BitVec.ofNat 16 (16 * s.err.toNat + 2 * s.noop.toNat + s.pf.isSome.toNat) := by
  apply BitVec.eq_of_toNat_eq
  have herr := s.err.isLt
  have hnoop := s.noop.toNat_le
  have hpfv := s.pf.isSome.toNat_le
  simp only [statusWord, State.pfv, toNat_fields, BitVec.toNat_ofBool, BitVec.ofNat_eq_ofNat,
    BitVec.toNat_ofNat]
  omega

theorem regAt_of_stage {a : Addr} (h : 0x08 ≤ a.toNat ∧ a.toNat < 0x10) :
    regAt a = some (.stage ⟨a.toNat - 0x08, by omega⟩) := by
  have hne : ∀ b : Addr, b.toNat < 0x08 → a ≠ b := by
    rintro b hb rfl
    omega
  simp only [regAt, hne 0x00 (by decide), hne 0x01 (by decide), hne 0x02 (by decide), hne 0x03 (by decide),
    hne 0x04 (by decide), hne 0x05 (by decide), ↓reduceIte, dif_pos h]

/-- Settles O5: the table of R101 goes through the map of R14 in its order; CMD, the map's first entry, is not in it. -/
theorem registerReads : Obligations.RegisterReads := by
  intro s a rest hp hw hh
  have hstep : step s = .next (regRead a { s with host := rest }) := step_read hp hw hh
  rw [hstep, regRead_eq_reply]
  by_cases h0 : a = 0x00
  · subst h0
    rfl
  simp only [regAt, if_neg h0]
  split_ifs with h1 h2 h3 h4 h5 hstage
  · simp only [Option.bind_some, regValue, Option.elim_some, statusWord_eq_ofNat]
    rfl
  · rfl
  · rfl
  · cases hfmt : s.params.updFmt <;> simp only [Option.bind_some, regValue, Option.elim_some, hfmt] <;> rfl
  · rfl
  · rfl
  · rfl

/-- Settles O6: the staging registers are the map's entries from 0x08 to 0x0F. -/
theorem registerWrites : Obligations.RegisterWrites := by
  intro s a v rest hp hw hh h0
  have hstep : step s = .next (regWrite a v { s with host := rest }) := (step_write hp hw hh).trans (if_neg h0)
  rw [hstep]
  by_cases hstage : 0x08 ≤ a.toNat ∧ a.toNat < 0x10
  · simp only [dif_pos hstage, regWrite, regAt_of_stage hstage, BitVec.setWidth_eq_extractLsb' (show 8 ≤ 16 by omega)]
    rfl
  · have hnot : ∀ j, regAt a ≠ some (.stage j) := fun j hj => by
      have := toNat_of_regAt_stage hj
      omega
    rw [dif_neg hstage, regWrite]
    split
    · next j hj => exact absurd hj (hnot j)
    · rfl

/-! ## FrameBuffer -/

section

variable {s : State} {a : Addr}

theorem fbRead_inside (h : a.toNat < s.params.size) : fbRead a s = reply (.sample (s.fb.read a.toNat)) s := if_pos h

theorem fbRead_outside (h : s.params.size ≤ a.toNat) : fbRead a s = reply .busError s := if_neg (Nat.not_lt_of_le h)

theorem fbWrite_inside (h : a.toNat < s.params.size) (v : Byte) :
    fbWrite a v s = reply .done { s with fb := s.fb.write a.toNat v } := if_pos h

theorem fbWrite_outside (h : s.params.size ≤ a.toNat) (v : Byte) : fbWrite a v s = reply .busError s :=
  if_neg (Nat.not_lt_of_le h)

end

/-- Settles O7: below the end of the frame the address is that of the sample in its column and row. -/
theorem frameBufferReads : Obligations.FrameBufferReads := by
  intro s a rest hp hw hh
  have hstep : step s = .next (fbRead a { s with host := rest }) := step_read hp hw hh
  rw [hstep, ← Memory.read_eq_at]
  by_cases hout : s.params.W.toNat * s.params.H.toNat ≤ a.toNat
  · rw [if_pos hout, fbRead_outside (s := { s with host := rest }) hout]
    rfl
  · rw [if_neg hout, fbRead_inside (s := { s with host := rest }) (Nat.lt_of_not_le hout)]
    rfl

/-- Settles O8: inside the frame the new FrameBuffer is the old one with the low byte written at the address. -/
theorem frameBufferWrites : Obligations.FrameBufferWrites := by
  intro s a v rest hp hfb hw hh
  have hstep : step s = .next (fbWrite a (v.setWidth 8) { s with host := rest }) := step_write hp hw hh
  have hlow : v.setWidth 8 = v.extractLsb' 0 8 := BitVec.setWidth_eq_extractLsb' (by omega)
  rw [hstep, hlow]
  split
  · next hout =>
    rw [fbWrite_outside (s := { s with host := rest }) hout]
    rfl
  · next hin =>
    refine ⟨s.fb.write a.toNat (v.extractLsb' 0 8), ?_, Memory.wf_write hfb _ _, ?_, fun b hb => ?_⟩
    · rw [fbWrite_inside (s := { s with host := rest }) (Nat.lt_of_not_le hin)]
      rfl
    · rw [← Memory.read_eq_at, Memory.read_write hfb, if_pos rfl]
    · rw [Memory.read_write hfb, if_neg hb]

end Sys2Proof.Machine
end

section
/-! Exceptions (R110 to R117, R124): a sink that does not answer, what a command that fails has done, and that it can
be issued again. -/

namespace Sys2Proof.Machine

/-! ## A silent sink -/

/-- A waiting command that finds no answer has only taken the look (R124). -/
theorem resume_unanswered {q : Pending} {s : State} (hw : s.waiting = some q) (hn : s.sink.look 0 = none) :
    resume q s = { s with sink := s.sink.after 1 } := by
  have hlen : 0 < (q.token :: q.later).length := Nat.succ_pos _
  have hacks : s.sink.AcksFor 0 := fun j hj => absurd hj (Nat.not_lt_zero j)
  rw [resume, transmit_waits hlen hacks hn]
  simp [hw]

/-- Settles O18: the step is one more look without an answer, and the looks after it find none either. -/
theorem silentSinkHangs : Obligations.SilentSinkHangs := by
  intro s q hp hw hsilent hr
  refine ⟨{ s with sink := s.sink.after 1 }, ?_, rfl, fun n => ?_⟩
  · rw [step_waiting hp hw hr, resume_unanswered hw (hsilent 0)]
    exact congrArg _ (completeIssue_of_waiting hw)
  · rw [look_after]
    exact hsilent (1 + n)

/-! ## A command that fails -/

/-- A transmission that ended in an error was ended by a NAK. -/
theorem transmit_failed {ts : List Token} {c : Commit} {s : State} (hw : (transmit ts c s).waiting = none)
    (herr : (transmit ts c s).err ≠ 0) :
    ∃ l u k, l ++ [u] <+: ts ∧ transmit ts c s = raiseErr (nakError u)
      { s with out := s.out ++ (acked l ++ [{ token := u, answer := .nak }]), sink := k } := by
  obtain ⟨k, h | ⟨l, u, hpre, h⟩ | ⟨l, u, us, -, h⟩⟩ := transmit_cases ts c s
  · rw [h] at herr
    exact absurd rfl herr
  · exact ⟨l, u, k, hpre, h⟩
  · rw [h] at hw
    cases hw

/-- The NAKed token `u` after the acknowledged ones `l` of a transmission, which begins with its only WAITRDY. -/
def EndsAtNak (l : List Token) (u : Token) : Prop :=
  u = .waitRdy ∧ l = [] ∨ u ≠ .waitRdy ∧ l.head? = some .waitRdy

theorem endsAtNak_of_prefix {l us : List Token} {u : Token} (hus : .waitRdy ∉ us)
    (hpre : l ++ [u] <+: .waitRdy :: us) : EndsAtNak l u := by
  cases l with
  | nil => exact .inl ⟨(List.cons_prefix_cons.mp hpre).1, rfl⟩
  | cons v l =>
    obtain ⟨rfl, htail⟩ := List.cons_prefix_cons.mp hpre
    refine .inr ⟨?_, rfl⟩
    rintro rfl
    exact hus (htail.subset (by simp))

/-- Everything a command that ended in an error has done (R113): it sent tokens up to a NAK; only CLEAR has written
to FrameBuffer. -/
theorem exec_failed {i : Instr} {s t : State} (hp : s.params.wf) (he : exec i s = .next t) (hw : t.waiting = none)
    (herr : t.err ≠ 0) :
    ¬ IsPack i ∧ ∃ F l u k, (i ≠ .clear → F = s.fb) ∧ EndsAtNak l u ∧ t = raiseErr (nakError u)
      { s with fb := F, out := s.out ++ (acked l ++ [{ token := u, answer := .nak }]), sink := k } := by
  obtain ⟨t', ht', hcases⟩ := exec_cases hp i
  cases ht'.symm.trans he
  obtain ⟨-, w, rfl⟩ | ⟨hi, F, c, hF, -, -, ⟨-, ts, us, -, rfl, hus, rfl⟩ | ⟨-, -, -, rfl⟩⟩ := hcases
  · exact absurd rfl herr
  · obtain ⟨l, u, k, hpre, ht⟩ := transmit_failed hw herr
    exact ⟨hi, F, l, u, k, fun hclear => hF.resolve_right fun h => hclear h.2, endsAtNak_of_prefix hus hpre, ht⟩
  · exact absurd rfl herr

/-- Settles O37: the error outcome itself writes only ERR, and the code is that of the NAKed token. -/
theorem failedCommandKeepsTracker : Obligations.FailedCommandKeepsTracker := by
  intro i s t hp he hw herr
  obtain ⟨-, F, l, u, k, hF, hnak, rfl⟩ := exec_failed hp he hw herr
  refine ⟨rfl, rfl, rfl, rfl, rfl, hF, l, u, rfl, ?_⟩
  rw [raiseErr_err, code_nakError]
  obtain ⟨hu, hl⟩ | ⟨hu, hl⟩ := hnak
  · exact .inl ⟨hu, if_pos hu, hl⟩
  · exact .inr ⟨hu, if_neg hu, hl⟩

/-! ## The command again -/

/-- The FrameBuffer a command works on: CLEAR's is its own fill (R92). -/
def workFrame (i : Instr) (s : State) : Memory := if i = .clear then white s.params else s.fb

theorem workFrame_of_ne_clear {i : Instr} (hi : i ≠ .clear) (s : State) : workFrame i s = s.fb := if_neg hi

/-- The states agree in all a tracker command reads but the sink. -/
structure AgreeFor (i : Instr) (s v : State) : Prop where
  params : v.params = s.params
  ga : v.ga = s.ga
  pf : v.pf = s.pf
  frame : workFrame i v = workFrame i s

section

variable {i : Instr} {s v : State}

theorem AgreeFor.self (i : Instr) (s : State) : AgreeFor i s s := ⟨rfl, rfl, rfl, rfl⟩

theorem AgreeFor.fb_eq (h : AgreeFor i s v) (hi : i ≠ .clear) : v.fb = s.fb := by
  rw [← workFrame_of_ne_clear hi v, h.frame, workFrame_of_ne_clear hi]

/-- Every command but CLEAR works on the FrameBuffer it finds. -/
theorem AgreeFor.with_workFrame (h : AgreeFor i s v) (hi : i ≠ .clear) : { v with fb := workFrame i s } = v := by
  rw [workFrame_of_ne_clear hi, ← h.fb_eq hi]

theorem AgreeFor.fullGa_eq (h : AgreeFor i s v) (hi : i ≠ .clear) (mode : Byte) : fullGa mode v = fullGa mode s := by
  simp only [fullGa, h.params, h.ga, h.pf, h.fb_eq hi]

theorem AgreeFor.partialBox_eq (h : AgreeFor i s v) (hi : i ≠ .clear) (mode : Byte) (m : Memory) :
    partialBox mode m v = partialBox mode m s := by
  simp only [partialBox, h.params, h.ga, h.fb_eq hi]

end

/-- From every state that agrees with `s`, the command transmits `ts` and commits `c`: one transmission, which begins
with WAITRDY unless there is nothing to send (R83, R90). -/
structure OneUpdateFor (i : Instr) (s : State) (ts : List Token) (c : Commit) : Prop where
  head : ts ≠ [] → ts.head? = some .waitRdy
  pf : c.pf = workFrame i s
  runs : ∀ v, AgreeFor i s v → exec i v = .next (transmit ts c { v with fb := workFrame i s })

section

variable {i : Instr} {s : State} {mode : Byte}

theorem oneUpdateFor_of_fullUpdate (hp : s.params.wf) (hi : i ≠ .clear)
    (hfull : ∀ v, AgreeFor i s v → exec i v = exec (.wfull mode) v) :
    OneUpdateFor i s (fullTokens s.params s.fb mode) { ga := fullGa mode s, pf := s.fb, noop := false } where
  head _ := rfl
  pf := (workFrame_of_ne_clear hi s).symm
  runs v h := by
    rw [h.with_workFrame hi, hfull v h, exec_wfull (h.params ▸ hp), h.params, h.fb_eq hi, h.fullGa_eq hi]

/-- With PreviousFrame present: the no-op update, or the rectangle. -/
theorem exists_oneUpdateFor_wpart {m : Memory} (hp : s.params.wf) (hpf : s.pf = some m) :
    ∃ ts c, OneUpdateFor (.wpart mode) s ts c := by
  have hi : Instr.wpart mode ≠ .clear := by simp
  cases hb : partialBox mode m s with
  | none =>
    refine ⟨[], { ga := fullGa mode s, pf := s.fb, noop := true }, fun hne => absurd rfl hne, rfl, fun v h => ?_⟩
    have hpf' := h.pf.trans hpf
    rw [h.with_workFrame hi, exec_wpart_partial hpf', partialUpdate_none ((h.partialBox_eq hi mode m).trans hb),
      partialGa_eq_fullGa hpf', h.fullGa_eq hi, h.fb_eq hi, transmit]
  | some b =>
    refine ⟨areaTokens s.params s.fb (rectOf (roundBox b)) mode, { ga := fullGa mode s, pf := s.fb, noop := false },
      fun _ => rfl, rfl, fun v h => ?_⟩
    have hpf' := h.pf.trans hpf
    rw [h.with_workFrame hi, exec_wpart_partial hpf',
      partialUpdate_some (h.params ▸ hp) ((h.partialBox_eq hi mode m).trans hb),
      partialGa_eq_fullGa hpf', h.fullGa_eq hi, h.params, h.fb_eq hi]

theorem oneUpdateFor_clear (hp : s.params.wf) :
    OneUpdateFor .clear s (fullTokens s.params (white s.params) 0)
      { ga := .zero, pf := white s.params, noop := false } where
  head _ := rfl
  pf := rfl
  runs v h := by
    rw [exec_clear (h.params ▸ hp), h.params]
    rfl

theorem exists_oneUpdateFor (hp : s.params.wf) (hi : ¬ IsPack i) : ∃ ts c, OneUpdateFor i s ts c := by
  cases i with
  | pack2 => simp [IsPack] at hi
  | pack3 => simp [IsPack] at hi
  | pack4 => simp [IsPack] at hi
  | pack8 => simp [IsPack] at hi
  | wfull mode => exact ⟨_, _, oneUpdateFor_of_fullUpdate hp (by simp) fun _ _ => rfl⟩
  | wpart mode =>
    obtain hpf | ⟨m, hpf⟩ := Option.eq_none_or_eq_some s.pf
    · exact ⟨_, _, oneUpdateFor_of_fullUpdate hp (by simp) fun v h => exec_wpart_bootstrap (h.pf.trans hpf)⟩
    · exact exists_oneUpdateFor_wpart hp hpf
  | clear => exact ⟨_, _, oneUpdateFor_clear hp⟩

end

/-- With a sink that acknowledges a transmission commits and has sent all its tokens. -/
theorem transmit_allAck (ts : List Token) (c : Commit) (s : State) :
    transmit ts c { s with sink := .allAck } = commit c { s with out := s.out ++ acked ts, sink := .allAck } := by
  rw [transmit_acks (allAck_acksFor _)]
  simp [SinkPlan.allAck, SinkPlan.after]

/-- A command that ended in an error had tokens to send. -/
theorem OneUpdateFor.tokens_ne_nil {i : Instr} {s t : State} {ts : List Token} {c : Commit}
    (h : OneUpdateFor i s ts c) (he : exec i s = .next t) (herr : t.err ≠ 0) : ts ≠ [] := by
  rintro rfl
  have ht : transmit [] c { s with fb := workFrame i s } = t :=
    Host.Outcome.next.inj ((h.runs s (.self i s)).symm.trans he)
  rw [← ht] at herr
  exact herr rfl

/-- With a sink that acknowledges, the command of any state that agrees commits and sends the tokens. -/
theorem OneUpdateFor.exec_allAck {i : Instr} {s v : State} {ts : List Token} {c : Commit} (h : OneUpdateFor i s ts c)
    (hv : AgreeFor i s v) : exec i { v with sink := .allAck } = .next (commit c
      { v with fb := workFrame i s, out := v.out ++ acked ts, sink := .allAck }) := by
  have hv' : AgreeFor i s { v with sink := .allAck } := ⟨hv.params, hv.ga, hv.pf, hv.frame⟩
  rw [h.runs _ hv']
  exact congrArg _ (transmit_allAck ts c { v with fb := workFrame i s })

/-- Settles O41: the failure has changed nothing the command reads, so the command again is the same transmission, and
its commit overwrites what the failure wrote besides `OUT`. -/
theorem retryRepeatsTheUpdate : Obligations.RetryRepeatsTheUpdate := by
  intro i s t hs he hw herr
  obtain ⟨hi, F, l, u, k, hF, -, rfl⟩ := exec_failed hs.params he hw herr
  obtain ⟨ts, c, h⟩ := exists_oneUpdateFor hs.params hi
  have hhead : ts.head? = some .waitRdy := h.head (h.tokens_ne_nil he herr)
  have hframe : workFrame i { s with fb := F } = workFrame i s := by
    by_cases hclear : i = .clear
    · simp only [workFrame, if_pos hclear]
    · rw [hF hclear]
  exact ⟨acked ts, commit c { s with fb := workFrame i s, sink := .allAck }, h.exec_allAck (.self i s),
    h.exec_allAck ⟨rfl, rfl, rfl, hframe⟩, by simp [acked, hhead], congrArg some h.pf, rfl, rfl⟩

end Sys2Proof.Machine
end


section
/-! Reset (R125, R126, R129): what the reset input leaves in every piece of the state, and the invariant of the state
after it. -/

namespace Sys2Proof.Machine

/-- The sampling of legal parameters is not refused (R4, R126). -/
theorem resetInput_of_wf {p : Params} (hp : p.wf) (l : List Byte) (s : State) :
    resetInput p l s = .next (resetBlock p l s) :=
  if_pos hp

/-- Inside the frame a launch finds the samples listed for it (R20). -/
theorem read_launchContents {p : Params} {l : List Byte} {a : Nat} (hl : a < l.length) (ha : a < p.size) :
    (launchContents p l).read a = l[a] := by
  rw [launchContents, Memory.read_tabulate, if_pos ha, List.getD_eq_getElem _ _ hl]

theorem resetParams_wf : Config.resetParams.wf := by decide

/-- Settles O13: a waiting command does not delay the reset, its parameters pass the check, and then every field is a
fact about `resetBlock`. -/
theorem resetInputResets : Obligations.ResetInputResets := by
  intro s p l rest hs hp hh
  have hstep : step s = .next (resetBlock p l { s with host := rest }) :=
    (step_reset hs hh).trans (resetInput_of_wf hp l _)
  have hstage (i : Fin 8) : (resetBlock p l { s with host := rest }).stage[i] = 0x00 := by
    simp only [resetBlock_stage, Fin.getElem_fin, Vector.getElem_replicate]
  exact ⟨_, hstep, rfl, hstage, rfl, rfl, rfl, rfl, Memory.read_zero, rfl, rfl,
    fun _ hl ha => read_launchContents hl ha, rfl, rfl, rfl⟩

/-- Settles O14: `State.reset` is one legal choice, with nothing listed in FrameBuffer. -/
theorem resetMeetsInvariant : Obligations.ResetMeetsInvariant :=
  ⟨fun _ _ hp hm => .resetOf hp hm, .resetOf resetParams_wf (Memory.ofFrame_zero _)⟩

end Sys2Proof.Machine
end
